-- ==== Sys2Proof/Word.lean ====
section
/-! DEFINITION. The machine's word: the byte (00_scope.md R5, 10_state.md R11). -/

namespace Sys2Proof

/-- A byte, read as an unsigned integer 0..255: a register, a memory cell, an address, pc. -/
abbrev Byte := BitVec 8

/-- The contents of the flags register FL, `0bLGE` (10_state.md R17). -/
abbrev FlagBits := BitVec 3

/-- The index of an interrupt line, 0..7 (60_exceptions.md R170). -/
abbrev Line := Fin 8

end Sys2Proof
end

