-- ==== Sys2Proof/Config.lean ====
section
/-! DEFINITION. The parameters of 00_scope.md R4, and the free values: the inputs of a cycle that nothing fixes.
The table OPC of R4 stands beside the decoder that reads it (Sys2Proof/Decode.lean). -/

namespace Sys2Proof

/-- `MEM_SIZE` (R4): the addresses are 0..255. -/
def Config.memSize : Nat := 256

/-- `FETCH_WINDOW` (R4): bytes read at every fetch. -/
def Config.fetchWindow : Nat := 3

/-- `ENTRY_FRAME` (R4): bytes pushed at interrupt entry. -/
def Config.entryFrame : Nat := 9

/-- `RESET_PC` (R4). -/
def Config.resetPc : Byte := 0

/-- `SP_RESET` (R4): x[7] after reset. -/
def Config.spReset : Byte := 0xF4

/-- `SP_CLAMP` (R4): where a pop no longer increments SP. -/
def Config.spClamp : Byte := 0xFF

/-- `VEC_BASE` (R4): the address of interrupt vector 0. -/
def Config.vecBase : Byte := 0xF8

/-- `TIMER_LINE` (R4): the interrupt line the timer raises. -/
def Config.timerLine : Line := 0

/-- FREE VALUE. Input `tick` of the cycle with this number, where State fixes none: "a free input of every cycle,
constrained by no rule" (10_state.md R22). DESIGN CHOICE of the form, log 2; safe. -/
opaque Config.freeTick : Nat → Bool

/-- FREE VALUE. Input `irq[7:0]` of the cycle with this number, where State fixes none (60_exceptions.md R171,
93_implementation_defined.md U12). DESIGN CHOICE of the form, log 2; safe. -/
opaque Config.freeIrq : Nat → Byte

end Sys2Proof
end

