-- ==== Sys2Proof/Machine/State.lean ====
section
/-! DEFINITION. The whole state of the machine (10_state.md R10), the reasons a step can stop, and the state after reset
(10_state.md R26). -/

namespace Sys2Proof.Machine

/-- MEM as plain data (20_memory.md R30): (address, byte) pairs in the canonical form of Memory.wf; an address not listed
reads 0x00, the byte every cell holds after reset (10_state.md R26). DEDUCED, log 4; safe. -/
abbrev Memory := List Host.Cell

/-- The register file x[0]..x[7] (10_state.md R11), x[5] = IM, x[6] = IS, x[7] = SP (R12). -/
structure Regs where
  x0 : Byte
  x1 : Byte
  x2 : Byte
  x3 : Byte
  x4 : Byte
  x5 : Byte
  x6 : Byte
  x7 : Byte
  deriving DecidableEq, Repr

/-- The kinds of machine fault (60_exceptions.md R150). Taking one is a next state with RUN = Faulted (log 1). -/
inductive FaultKind
  /-- The opcode byte fetched is none of the 17; raised by decode (R151). -/
  | illegalInstruction
  /-- The fetch window or the sequential advance passes address 255; raised by fetch and by 3-byte instructions (R152). -/
  | addressOutOfRange
  /-- An operand byte in a register position is above 7; raised by decode (R153). -/
  | registerOutOfRange
  /-- A push at SP = 0, or interrupt entry with SP < 9; raised by PUSH, CALL and interrupt entry (R154). -/
  | stackOverflow
  /-- Divide or Modulo by zero in the ALU; raised by no instruction (R157). -/
  | divisionByZero
  deriving DecidableEq, Repr

/-- The fault record `Faulted(kind, pc, opcode, info)` (10_state.md R20). -/
structure FaultRecord where
  kind   : FaultKind
  /-- pc when the fault was raised -/
  pc     : Byte
  /-- the byte of MEM at that pc at that moment -/
  opcode : Byte
  /-- the kind's own datum: the bad address, the bad byte, or nothing -/
  info   : Option Nat
  deriving DecidableEq, Repr

/-- RUN, the state of the execution loop (10_state.md R19). -/
inductive Run
  | running
  | halted
  | faulted (r : FaultRecord)
  deriving DecidableEq, Repr

/-- The inputs one cycle samples (00_scope.md R8): `tick` and `irq[7:0]`. -/
structure CycleInput where
  tick : Bool
  irq  : Byte
  deriving DecidableEq, Repr

/-- The machine's state: the fields of 10_state.md R10, then the two fields of the model's own that carry the inputs. -/
structure State where
  /-- MEM (20_memory.md R30) -/
  mem    : Memory
  /-- x[0]..x[7] (10_state.md R11) -/
  regs   : Regs
  /-- the program counter (10_state.md R15) -/
  pc     : Byte
  /-- FL (10_state.md R17) -/
  fl     : FlagBits
  /-- RUN (10_state.md R19) -/
  run    : Run
  /-- OUT (10_state.md R21), oldest byte first -/
  out    : List Byte
  /-- the input samples fixed for the coming cycles, the next cycle's first; where it is empty a cycle samples free
  values. DESIGN CHOICE, log 2; safe -/
  inputs : List CycleInput
  /-- how many cycles have been performed; selects a cycle's free inputs. DESIGN CHOICE, log 2; safe -/
  cycle  : Nat
  deriving DecidableEq, Repr

/-- The reasons for the host's outcome `fault`: none. A fault of this machine has an effect the spec gives, RUN <-
Faulted(kind, pc, opcode, info) with the rest of the state kept and readable (00_scope.md R7, 10_state.md R19, R20), so
it is a next state (log 1; safe): no step and no meaning ever answers `fault`. -/
inductive Fault
  deriving DecidableEq, Repr

/-- The reasons for the host's outcome `refused`. -/
inductive Refusal
  /-- Raised by exec's arm for an instruction that has no meaning yet; safe. No arm uses it. -/
  | notModelled (mnemonic : String)
  /-- Raised by the host action State.load for an image of more than 256 bytes, which "is refused by the host interface
  with AddressOutOfRange and nothing is loaded" (70_reset_and_hazards.md R202); safe. -/
  | imageOutOfRange (length : Nat)
  /-- Raised by the host action State.load on a machine that has already run a cycle, to which "this spec gives no
  meaning" (70_reset_and_hazards.md R202); safe. -/
  | loadAfterFirstCycle
  deriving DecidableEq, Repr

/-- What a step, a meaning or a host action answers. -/
abbrev Result := Host.Outcome State Fault Refusal

/-- The machine right after reset (10_state.md R26, 70_reset_and_hazards.md R200). The two fields of the model's own:
no input fixed, no cycle performed (DESIGN CHOICE, log 2). -/
def State.reset : State where
  mem    := []
  regs   := { x0 := 0, x1 := 0, x2 := 0, x3 := 0, x4 := 0, x5 := 0, x6 := 0, x7 := Config.spReset }
  pc     := Config.resetPc
  fl     := 0
  run    := .running
  out    := []
  inputs := []
  cycle  := 0

end Sys2Proof.Machine
end

