-- ==== Sys2Proof/Machine/Flags.lean ====
section
/-! DEFINITION. The flags register FL (10_state.md R17): bit 0 Equal, bit 1 Greater, bit 2 Less. -/

namespace Sys2Proof.Machine

/-- FL.E. -/
def State.flagE (s : State) : Bool := s.fl.getLsbD 0

/-- FL.G. -/
def State.flagG (s : State) : Bool := s.fl.getLsbD 1

/-- FL.L. -/
def State.flagL (s : State) : Bool := s.fl.getLsbD 2

/-- What Compare answers: exactly one of E, G, L, the operands compared as unsigned bytes (40_alu.md R76). -/
def compareFlags (a b : Byte) : FlagBits :=
  if a = b then 0b001 else if b.toNat < a.toNat then 0b010 else 0b100

end Sys2Proof.Machine
end

