-- ==== Sys2Proof/Syntax.lean ====
section
/-! DEFINITION. The 17 instructions (30_encoding.md R54), their formats (R51) and the eight registers (10_state.md R11). -/

namespace Sys2Proof

/-- The eight general registers x[0]..x[7] (10_state.md R11). -/
inductive Reg
  | r0 | r1 | r2 | r3 | r4 | r5 | r6 | r7
  deriving DecidableEq, Repr

/-- IM, the interrupt mask, is another name for x[5] (10_state.md R12). -/
abbrev Reg.im : Reg := .r5

/-- IS, the interrupt status, is another name for x[6] (10_state.md R12). -/
abbrev Reg.is : Reg := .r6

/-- SP, the stack pointer, is another name for x[7] (10_state.md R12). -/
abbrev Reg.sp : Reg := .r7

/-- The mnemonics of the opcode table, one per row (30_encoding.md R54). -/
inductive Mnemonic
  | nop | hlt | ret | iret | push | pop | prn | call | jmp | jeq | jne | jlt | ldi | st | add | mul | cmp
  deriving DecidableEq, Repr

/-- The four instruction formats (30_encoding.md R51). -/
inductive Format
  /-- no operand -/
  | z
  /-- one register operand -/
  | r
  /-- two register operands -/
  | rr
  /-- a register operand and an immediate -/
  | ri
  deriving DecidableEq, Repr

/-- An instruction with its operand bytes, each "the whole operand byte taken as an unsigned number"
(30_encoding.md R53). A register operand is a byte here, and Instr.wf says that it is 0..7. -/
inductive Instr
  | nop
  | hlt
  | ret
  | iret
  | push (ra : Byte)
  | pop (ra : Byte)
  | prn (ra : Byte)
  | call (ra : Byte)
  | jmp (ra : Byte)
  | jeq (ra : Byte)
  | jne (ra : Byte)
  | jlt (ra : Byte)
  | ldi (ra imm : Byte)
  | st (ra rb : Byte)
  | add (ra rb : Byte)
  | mul (ra rb : Byte)
  | cmp (ra rb : Byte)
  deriving DecidableEq, Repr

/-- The row of the opcode table an instruction belongs to. -/
def Instr.mnemonic : Instr → Mnemonic
  | .nop => .nop
  | .hlt => .hlt
  | .ret => .ret
  | .iret => .iret
  | .push _ => .push
  | .pop _ => .pop
  | .prn _ => .prn
  | .call _ => .call
  | .jmp _ => .jmp
  | .jeq _ => .jeq
  | .jne _ => .jne
  | .jlt _ => .jlt
  | .ldi _ _ => .ldi
  | .st _ _ => .st
  | .add _ _ => .add
  | .mul _ _ => .mul
  | .cmp _ _ => .cmp

/-- An instruction's operand bytes in encoding order (30_encoding.md R50, R62). -/
def Instr.operands : Instr → List Byte
  | .nop | .hlt | .ret | .iret => []
  | .push ra | .pop ra | .prn ra | .call ra | .jmp ra | .jeq ra | .jne ra | .jlt ra => [ra]
  | .ldi ra imm => [ra, imm]
  | .st ra rb | .add ra rb | .mul ra rb | .cmp ra rb => [ra, rb]

end Sys2Proof
end

