-- ==== Sys2Proof/WellFormed.lean ====
section
/-! DEFINITION. When an instruction is well formed: every operand byte in a register position is 0..7
(30_encoding.md R51, R53; 43_dispatch_loop.md R125). -/

namespace Sys2Proof

/-- "it is a legal register index when it is 0..7, and no bits of it are masked off or ignored" (30_encoding.md R53). -/
def isRegByte (b : Byte) : Bool := decide (b.toNat < 8)

/-- Every operand byte that the format declares a register index is 0..7; an immediate has no illegal value (R57). -/
def Instr.wf : Instr → Bool
  | .nop | .hlt | .ret | .iret => true
  | .push ra | .pop ra | .prn ra | .call ra | .jmp ra | .jeq ra | .jne ra | .jlt ra => isRegByte ra
  | .ldi ra _ => isRegByte ra
  | .st ra rb | .add ra rb | .mul ra rb | .cmp ra rb => isRegByte ra && isRegByte rb

end Sys2Proof
end

