-- ==== Sys2Proof/Decode.lean ====
section
/-! DEFINITION. Decoding (43_dispatch_loop.md R124, R125, R127) and encoding (30_encoding.md R50 to R54), both written
from the one table OPC. -/

namespace Sys2Proof

/-- The table OPC: the opcode byte of each mnemonic (30_encoding.md R54). The values are the spec's decision D1, from
general knowledge of the family and not from its source: a replaceable table, which no meaning reads (log 10). -/
def opc : Mnemonic → Byte
  | .nop  => 0b00000000
  | .hlt  => 0b00000001
  | .ret  => 0b00010001
  | .iret => 0b00010011
  | .push => 0b01000101
  | .pop  => 0b01000110
  | .prn  => 0b01000111
  | .call => 0b01010000
  | .jmp  => 0b01010100
  | .jeq  => 0b01010101
  | .jne  => 0b01010110
  | .jlt  => 0b01011000
  | .ldi  => 0b10000010
  | .st   => 0b10000100
  | .add  => 0b10100000
  | .mul  => 0b10100010
  | .cmp  => 0b10100111

/-- The rows of the opcode table, in its order. -/
def mnemonics : List Mnemonic :=
  [.nop, .hlt, .ret, .iret, .push, .pop, .prn, .call, .jmp, .jeq, .jne, .jlt, .ldi, .st, .add, .mul, .cmp]

/-- The format of each row (30_encoding.md R51, R54). -/
def Mnemonic.format : Mnemonic → Format
  | .nop | .hlt | .ret | .iret => .z
  | .push | .pop | .prn | .call | .jmp | .jeq | .jne | .jlt => .r
  | .ldi => .ri
  | .st | .add | .mul | .cmp => .rr

/-- The "declared operand count" n of a format (30_encoding.md R52). -/
def Format.operandCount : Format → Nat
  | .z => 0
  | .r => 1
  | .rr => 2
  | .ri => 2

/-- Decoding compares "the whole opcode byte (mask 0xFF)" with the table's values (30_encoding.md R54). -/
def lookupOpcode (ir : Byte) : Option Mnemonic :=
  mnemonics.find? fun m => decide (opc m = ir)

/-- The register operand check of 43_dispatch_loop.md R125: the first operand byte in a register position that is
above 7, `opa` before `opb`. -/
def firstBadRegister (f : Format) (opa opb : Byte) : Option Byte :=
  match f with
  | .z => none
  | .r | .ri => if isRegByte opa then none else some opa
  | .rr => if isRegByte opa then (if isRegByte opb then none else some opb) else some opa

/-- The instruction of a row with the fetched operand bytes; the bytes beyond its operand count are ignored
(30_encoding.md R57). -/
def Mnemonic.withOperands (m : Mnemonic) (opa opb : Byte) : Instr :=
  match m with
  | .nop => .nop
  | .hlt => .hlt
  | .ret => .ret
  | .iret => .iret
  | .push => .push opa
  | .pop => .pop opa
  | .prn => .prn opa
  | .call => .call opa
  | .jmp => .jmp opa
  | .jeq => .jeq opa
  | .jne => .jne opa
  | .jlt => .jlt opa
  | .ldi => .ldi opa opb
  | .st => .st opa opb
  | .add => .add opa opb
  | .mul => .mul opa opb
  | .cmp => .cmp opa opb

/-- Why three fetched bytes are no instruction. -/
inductive DecodeError
  /-- The opcode byte is none of the 17 (43_dispatch_loop.md R127). -/
  | illegalInstruction (ir : Byte)
  /-- An operand byte in a register position is 8..255 (43_dispatch_loop.md R125). -/
  | registerOutOfRange (operand : Byte)
  deriving DecidableEq, Repr

/-- Decode the fetch window `ir`, `opa`, `opb` (43_dispatch_loop.md R122): first the opcode (R127), then the register
operands (R125), in the order of R128. -/
def decode (ir opa opb : Byte) : Except DecodeError Instr :=
  match lookupOpcode ir with
  | none => .error (.illegalInstruction ir)
  | some m =>
    match firstBadRegister m.format opa opb with
    | some b => .error (.registerOutOfRange b)
    | none => .ok (m.withOperands opa opb)

/-- Decode the instruction at the head of a list of bytes; bytes past the end of the list read as 0x00, as MEM does
where nothing has been written (20_memory.md R30). -/
def decodeBytes (bs : List Byte) : Except DecodeError Instr :=
  decode (bs.getD 0 0) (bs.getD 1 0) (bs.getD 2 0)

/-- The bytes of an instruction at ascending addresses: the opcode, then its operand bytes (30_encoding.md R50). -/
def encode (i : Instr) : List Byte := opc i.mnemonic :: i.operands

/-- The register a byte names, where it names one (30_encoding.md R53). -/
def Reg.ofByte? (b : Byte) : Option Reg :=
  match b.toNat with
  | 0 => some .r0
  | 1 => some .r1
  | 2 => some .r2
  | 3 => some .r3
  | 4 => some .r4
  | 5 => some .r5
  | 6 => some .r6
  | 7 => some .r7
  | _ => none

/-- The operand byte that names a register. -/
def Reg.byte : Reg → Byte
  | .r0 => 0
  | .r1 => 1
  | .r2 => 2
  | .r3 => 3
  | .r4 => 4
  | .r5 => 5
  | .r6 => 6
  | .r7 => 7

/-- Byte number `k` of an instruction whose `nbits` bits are `w`, bit 0 the least significant of the first byte; every
bit from `nbits` up is 0. -/
def tableByte (nbits w k : Nat) : Byte := BitVec.ofNat 8 (w % 2 ^ nbits / 256 ^ k)

/-- The instruction the decoder reads from a table word: its bytes stand at ascending addresses, the first byte lowest
(20_memory.md R36). -/
def decodeTableWord (nbits w : Nat) : Option Instr :=
  match decode (tableByte nbits w 0) (tableByte nbits w 1) (tableByte nbits w 2) with
  | .ok i => some i
  | .error _ => none

end Sys2Proof
end

