-- ==== Sys2Proof/Machine/Ops.lean ====
section
/-! DEFINITION. The shared operations: memory and registers, the fault primitive, the stack primitives, the sampling of
the inputs, taking an interrupt and returning from one, fetching, and the host's load. -/

namespace Sys2Proof.Machine

/-! ## Memory (20_memory.md) -/

/-- What an address that is not listed reads as: "zero-initialized" (20_memory.md R30, 10_state.md R26). -/
def Memory.unlisted : Byte := 0

/-- `MemRead(addr, 1)` (20_memory.md R32). -/
def Memory.read : Memory → Byte → Byte
  | [], _ => Memory.unlisted
  | (k, v) :: m, a => if k = a.toNat then v else Memory.read m a

/-- `MemWrite(addr, 1, v)` (20_memory.md R32), keeping the canonical form. -/
def Memory.write : Memory → Byte → Byte → Memory
  | [], a, v => if v = Memory.unlisted then [] else [(a.toNat, v)]
  | (k, w) :: m, a, v =>
    if a.toNat < k then
      if v = Memory.unlisted then (k, w) :: m else (a.toNat, v) :: (k, w) :: m
    else if a.toNat = k then
      if v = Memory.unlisted then m else (k, v) :: m
    else (k, w) :: Memory.write m a v

/-- The canonical form from address `lo` up: addresses strictly rising and below 256, and no entry equal to what an
unlisted address reads as. -/
def Memory.wfFrom (lo : Nat) : Memory → Bool
  | [] => true
  | (k, v) :: m =>
    decide (lo ≤ k) && decide (k < Config.memSize) && decide (v ≠ Memory.unlisted) && Memory.wfFrom (k + 1) m

/-- The canonical form of a memory, so that equal memories are equal data. -/
def Memory.wf (m : Memory) : Bool := Memory.wfFrom 0 m

/-! ## Registers (10_state.md R11 to R14) -/

/-- The value of a register. -/
def Regs.get (g : Regs) : Reg → Byte
  | .r0 => g.x0
  | .r1 => g.x1
  | .r2 => g.x2
  | .r3 => g.x3
  | .r4 => g.x4
  | .r5 => g.x5
  | .r6 => g.x6
  | .r7 => g.x7

/-- The register file with one register written; "no register is hardwired" (10_state.md R11). -/
def Regs.set (g : Regs) (r : Reg) (v : Byte) : Regs :=
  match r with
  | .r0 => { g with x0 := v }
  | .r1 => { g with x1 := v }
  | .r2 => { g with x2 := v }
  | .r3 => { g with x3 := v }
  | .r4 => { g with x4 := v }
  | .r5 => { g with x5 := v }
  | .r6 => { g with x6 := v }
  | .r7 => { g with x7 := v }

/-- `x[r]` (00_scope.md R6). -/
def State.x (s : State) (r : Reg) : Byte := s.regs.get r

/-- `x[r] <- v`. -/
def State.setX (s : State) (r : Reg) (v : Byte) : State := { s with regs := s.regs.set r v }

/-- `pc <- t`. -/
def State.setPc (s : State) (t : Byte) : State := { s with pc := t }

/-- `FL <- v`. -/
def State.setFl (s : State) (v : FlagBits) : State := { s with fl := v }

/-- `RUN <- r`. -/
def State.setRun (s : State) (r : Run) : State := { s with run := r }

/-- `MemWrite(a, 1, v)`. -/
def State.store (s : State) (a v : Byte) : State := { s with mem := s.mem.write a v }

/-- `Emit(v)`: append a byte to OUT (10_state.md R21). -/
def State.emit (s : State) (v : Byte) : State := { s with out := s.out ++ [v] }

/-! ## The fault primitive (00_scope.md R7, 60_exceptions.md R150) -/

/-- The effect of `raise K(info)`: RUN <- Faulted(K, pc, opcode, info), where opcode is the byte of MEM at pc at that
moment (10_state.md R20). Every caller raises before the first write of its phase. -/
def State.faulted (s : State) (k : FaultKind) (info : Option Nat) : State :=
  s.setRun (.faulted { kind := k, pc := s.pc, opcode := s.mem.read s.pc, info := info })

/-- `raise K(info)` as the end of a cycle. -/
def raise (k : FaultKind) (info : Option Nat) (s : State) : Result := .next (s.faulted k info)

/-- `raise AddressOutOfRange(256)`: "256 is the first address outside memory" (43_dispatch_loop.md R121, R126). -/
def raiseAddressOutOfRange (s : State) : Result := raise .addressOutOfRange (some Config.memSize) s

/-- The address of the next instruction, pc + 1 + n, where it is an address; `raise AddressOutOfRange(256)` where it
would leave 0..255 (43_dispatch_loop.md R126). A cycle calls it with pc <= 253 only; above that it raises too
(DESIGN CHOICE, log 7; safe). -/
def withNextPc (n : Nat) (s : State) (k : Byte → Result) : Result :=
  if s.pc.toNat + 1 + n < Config.memSize then k (s.pc + BitVec.ofNat 8 (1 + n)) else raiseAddressOutOfRange s

/-- The sequential advance of an instruction with n operand bytes (43_dispatch_loop.md R126): the range check first, then
the instruction's effect, then pc. -/
def sequential (n : Nat) (s : State) (effect : State → State) : Result :=
  withNextPc n s fun next => .next ((effect s).setPc next)

/-! ## The stack primitives (42_stack.md R100, R101, R106) -/

/-- The cell the next push writes, x[7] - 1, for x[7] >= 1 (42_stack.md R100). -/
def pushAddress (s : State) : Byte := s.x .sp - 1

/-- The two actions of `Push` where x[7] >= 1: decrement SP, then write `value`, which is read after the decrement
(42_stack.md R100, R102). -/
def pushWith (s : State) (value : State → Byte) : State :=
  let s := s.setX .sp (pushAddress s)
  s.store (s.x .sp) (value s)

/-- `Push(v)` where x[7] >= 1 (42_stack.md R100). -/
def pushByte (v : Byte) (s : State) : State := pushWith s fun _ => v

/-- The check of `Push`: "if x[7] = 0 then raise StackOverflow", before any write (42_stack.md R100). -/
def withStackRoom (s : State) (k : Result) : Result :=
  if s.x .sp = 0 then raise .stackOverflow none s else k

/-- SP after a pop: one more, unless it is 0xFF, "in which case it holds" (42_stack.md R101). -/
def afterPop (sp : Byte) : Byte := if sp = Config.spClamp then sp else sp + 1

/-- The byte on top of the stack. -/
def stackTop (s : State) : Byte := s.mem.read (s.x .sp)

/-- The increment of a pop. -/
def dropTop (s : State) : State := s.setX .sp (afterPop (s.x .sp))

/-- `Pop()`: the byte and the state after it (42_stack.md R101). -/
def pop (s : State) : Byte × State := (stackTop s, dropTop s)

/-! ## The inputs: phase A1 (60_exceptions.md R171) -/

/-- The inputs the next cycle samples: the first of `inputs`, or free values where none is fixed (log 2). -/
def State.nextInput (s : State) : CycleInput :=
  match s.inputs with
  | [] => { tick := Config.freeTick s.cycle, irq := Config.freeIrq s.cycle }
  | i :: _ => i

/-- `tick << TIMER_LINE` (60_exceptions.md R171). -/
def timerBit (tick : Bool) : Byte := if tick then 1#8 <<< Config.timerLine.val else 0

/-- Phase A1: x[6] <- x[6] | irq[7:0] | (tick << TIMER_LINE) (60_exceptions.md R171). -/
def sample (s : State) : State :=
  let i := s.nextInput
  { s.setX .is (s.x .is ||| i.irq ||| timerBit i.tick) with inputs := s.inputs.tail, cycle := s.cycle + 1 }

/-! ## Taking an interrupt: phase A2 (60_exceptions.md R172 to R176) -/

/-- The interrupt lines in the order in which they are scanned, "low-to-high" (60_exceptions.md R173). -/
def lines : List Line := [0, 1, 2, 3, 4, 5, 6, 7]

/-- "eligible = IM & IS, per bit" (60_exceptions.md R172). -/
def eligible (mask status : Byte) (i : Line) : Bool := mask.getLsbD i.val && status.getLsbD i.val

/-- The line taken: "first eligible bit wins per cycle" (60_exceptions.md R173). -/
def lowestEligible (mask status : Byte) : Option Line := lines.find? (eligible mask status)

/-- The address of the vector of line i, 0xF8 + i (20_memory.md R35). -/
def vectorAddress (i : Line) : Byte := Config.vecBase + BitVec.ofNat 8 i.val

/-- FL as a byte, `zext_8(FL)` = `0b00000LGE` (10_state.md R17). -/
def flagByte (fl : FlagBits) : Byte := fl.setWidth 8

/-- x[0] to x[6], the registers an interrupt saves, in the order of saving (60_exceptions.md R175 step 4). -/
def savedRegs : List Reg := [.r0, .r1, .r2, .r3, .r4, .r5, .r6]

/-- Push a register, then zero it (60_exceptions.md R175 step 4). -/
def saveAndZero (s : State) (r : Reg) : State := (pushByte (s.x r) s).setX r 0

/-- Interrupt entry on line i (60_exceptions.md R174, R175): the check of the stack's room first, then the five steps. -/
def enterInterrupt (i : Line) (s : State) : State :=
  if (s.x .sp).toNat < Config.entryFrame then s.faulted .stackOverflow none
  else
    let s := s.setX .is (s.x .is &&& ~~~(1#8 <<< i.val))
    let s := pushByte s.pc s
    let s := pushByte (flagByte s.fl) s
    let s := s.setFl 0
    let s := savedRegs.foldl saveAndZero s
    s.setPc (s.mem.read (vectorAddress i))

/-- Phase A2: take the lowest eligible line, if there is one (60_exceptions.md R172, R173). -/
def arbitrate (s : State) : State :=
  match lowestEligible (s.x .im) (s.x .is) with
  | none => s
  | some i => enterInterrupt i s

/-- Phases A1 and A2 of a cycle (43_dispatch_loop.md R120). -/
def interruptPhase (s : State) : State := arbitrate (sample s)

/-! ## Returning from an interrupt (60_exceptions.md R180) -/

/-- `x[r] <- Pop()`, for a register other than x[7]. -/
def popInto (s : State) (r : Reg) : State :=
  let (v, s) := pop s
  s.setX r v

/-- `t <- Pop(); FL <- t[2:0]` (60_exceptions.md R180). -/
def popFlags (s : State) : State :=
  let (t, s) := pop s
  s.setFl (t.setWidth 3)

/-- `pc <- Pop()` (42_stack.md R105). -/
def popPc (s : State) : State :=
  let (t, s) := pop s
  s.setPc t

/-- The return from an interrupt: the nine pops, in the mirror order of the save (60_exceptions.md R180). -/
def returnFromInterrupt (s : State) : State :=
  popPc (popFlags (savedRegs.reverse.foldl popInto s))

/-! ## Fetch (43_dispatch_loop.md R121, R122) -/

/-- The bytes `ir`, `opa`, `opb` at pc, pc + 1, pc + 2, or nothing where the window would pass address 255. -/
def fetch (s : State) : Option (Byte × Byte × Byte) :=
  if s.pc.toNat + Config.fetchWindow ≤ Config.memSize then
    some (s.mem.read s.pc, s.mem.read (s.pc + 1), s.mem.read (s.pc + 2))
  else none

/-! ## The host's load (70_reset_and_hazards.md R202) -/

/-- Write bytes to consecutive addresses from `a` up. -/
def Memory.writeFrom (m : Memory) (a : Nat) : List Byte → Memory
  | [] => m
  | b :: bs => Memory.writeFrom (m.write (BitVec.ofNat 8 a) b) (a + 1) bs

/-- `load(image)`: the bytes of the image to MEM[0], MEM[1], ...; an image of more than 256 bytes is refused, and so is a
load into a machine that has already run a cycle (R202; log 6). -/
def State.load (s : State) (image : List Byte) : Result :=
  if s.cycle ≠ 0 then .refused .loadAfterFirstCycle
  else if Config.memSize < image.length then .refused (.imageOutOfRange image.length)
  else .next { s with mem := s.mem.writeFrom 0 image }

end Sys2Proof.Machine
end

