-- ==== Sys2Proof/Machine/Operands.lean ====
section
/-! DEFINITION. The operand forms (30_encoding.md R51, R53): one register, two registers. An immediate is its byte as it
is. The decoder has already refused a register byte above 7 (43_dispatch_loop.md R125); each instruction's own rule lists
that fault too, and here it is raised again so that exec has that rule's meaning on every Instr (log 9; safe). -/

namespace Sys2Proof.Machine

/-- `raise RegisterOutOfRange(b)` (43_dispatch_loop.md R125). -/
def raiseRegisterOutOfRange (b : Byte) (s : State) : Result := raise .registerOutOfRange (some b.toNat) s

/-- One register operand: its index, checked before any write (43_dispatch_loop.md R125). -/
def withReg (ra : Byte) (s : State) (k : Reg → Result) : Result :=
  match Reg.ofByte? ra with
  | some a => k a
  | none => raiseRegisterOutOfRange ra s

/-- Two register operands: opa is checked before opb (43_dispatch_loop.md R125). -/
def withRegs (ra rb : Byte) (s : State) (k : Reg → Reg → Result) : Result :=
  withReg ra s fun a => withReg rb s fun b => k a b

end Sys2Proof.Machine
end

