-- ==== Sys2Proof/Machine/Alu.lean ====
section
/-! DEFINITION. The ALU block (40_alu.md R70 to R77) and the instructions ADD, MUL, CMP (R81 to R83). -/

namespace Sys2Proof.Machine

/-- The operation selector of the ALU (40_alu.md R70). -/
inductive AluOp
  | add | subtract | multiply | divide | modulo | compare
  deriving DecidableEq, Repr

/-- What the ALU answers: a byte, a flag value (40_alu.md R70), or DivisionByZero (R74, R75). -/
inductive AluResult
  | byte (v : Byte)
  | flags (f : FlagBits)
  | divisionByZero
  deriving DecidableEq, Repr

/-- ALU(Add) (40_alu.md R71): the exact sum, reduced mod 256. -/
def aluAdd (a b : Byte) : Byte := BitVec.ofNat 8 (a.toNat + b.toNat)

/-- ALU(Multiply) (40_alu.md R73): the exact product, reduced mod 256. -/
def aluMultiply (a b : Byte) : Byte := BitVec.ofNat 8 (a.toNat * b.toNat)

/-- The ALU: a "pure function over two register values and an operation selector" (40_alu.md R70). Subtract, Divide and
Modulo are reached by no opcode (log 8). -/
def alu (op : AluOp) (a b : Byte) : AluResult :=
  match op with
  | .add => .byte (aluAdd a b)
  | .subtract => .byte (BitVec.ofInt 8 ((a.toNat : Int) - (b.toNat : Int)))
  | .multiply => .byte (aluMultiply a b)
  | .divide => if b = 0 then .divisionByZero else .byte (BitVec.ofNat 8 (a.toNat / b.toNat))
  | .modulo => if b = 0 then .divisionByZero else .byte (BitVec.ofNat 8 (a.toNat % b.toNat))
  | .compare => .flags (compareFlags a b)

/-- Run the ALU on two registers: a byte goes to the first, a flag value to FL, and DivisionByZero is raised
(40_alu.md R70; 60_exceptions.md R157); then the sequential advance of a 3-byte instruction. Both operands are read
before the write. DESIGN CHOICE, log 8; safe: DivisionByZero is raised before the check of the advance, at pc = 253 too;
43_dispatch_loop.md R128 and 60_exceptions.md R158 do not place it, and no opcode reaches it. -/
def aluInstruction (op : AluOp) (ra rb : Byte) (s : State) : Result :=
  withRegs ra rb s fun a b =>
    match alu op (s.x a) (s.x b) with
    | .byte v => sequential 2 s fun s => s.setX a v
    | .flags f => sequential 2 s fun s => s.setFl f
    | .divisionByZero => raise .divisionByZero none s

/-- ADD ra, rb (40_alu.md R81). -/
def execAdd (ra rb : Byte) (s : State) : Result := aluInstruction .add ra rb s

/-- MUL ra, rb (40_alu.md R82). -/
def execMul (ra rb : Byte) (s : State) : Result := aluInstruction .multiply ra rb s

/-- CMP ra, rb (40_alu.md R83). -/
def execCmp (ra rb : Byte) (s : State) : Result := aluInstruction .compare ra rb s

end Sys2Proof.Machine
end

