-- ==== Sys2Proof/Machine/Control.lean ====
section
/-! DEFINITION. NOP and HLT (43_dispatch_loop.md R130, R131) and IRET (60_exceptions.md R180). -/

namespace Sys2Proof.Machine

/-- NOP (43_dispatch_loop.md R131). -/
def execNop (s : State) : Result := sequential 0 s id

/-- HLT (43_dispatch_loop.md R130): pc stays at the HLT. -/
def execHlt (s : State) : Result := .next (s.setRun .halted)

/-- IRET (60_exceptions.md R180). -/
def execIret (s : State) : Result := .next (returnFromInterrupt s)

end Sys2Proof.Machine
end

