-- ==== Sys2Proof/Machine/Data.lean ====
section
/-! DEFINITION. LDI, PRN and ST (43_dispatch_loop.md R132 to R134). -/

namespace Sys2Proof.Machine

/-- LDI ra, imm (43_dispatch_loop.md R132). -/
def execLdi (ra imm : Byte) (s : State) : Result :=
  withReg ra s fun a => sequential 2 s fun s => s.setX a imm

/-- PRN ra (43_dispatch_loop.md R133). -/
def execPrn (ra : Byte) (s : State) : Result :=
  withReg ra s fun a => sequential 1 s fun s => s.emit (s.x a)

/-- ST ra, rb (43_dispatch_loop.md R134): the address is the whole value of x[ra]. -/
def execSt (ra rb : Byte) (s : State) : Result :=
  withRegs ra rb s fun a b => sequential 2 s fun s => s.store (s.x a) (s.x b)

end Sys2Proof.Machine
end

