-- ==== Sys2Proof/Machine/Jump.lean ====
section
/-! DEFINITION. JMP, JEQ, JNE, JLT (41_flags_jumps.md R90 to R96). -/

namespace Sys2Proof.Machine

/-- A jump to the address in a register where `taken`, else the advance past its two bytes; the register byte is checked
whether or not the jump is taken (41_flags_jumps.md R90, R95). -/
def jumpWhen (taken : Bool) (ra : Byte) (s : State) : Result :=
  withReg ra s fun a => if taken then .next (s.setPc (s.x a)) else sequential 1 s id

/-- JMP ra (41_flags_jumps.md R91). -/
def execJmp (ra : Byte) (s : State) : Result := jumpWhen true ra s

/-- JEQ ra (41_flags_jumps.md R92). -/
def execJeq (ra : Byte) (s : State) : Result := jumpWhen s.flagE ra s

/-- JNE ra (41_flags_jumps.md R93): taken where the Equal bit is clear. -/
def execJne (ra : Byte) (s : State) : Result := jumpWhen (!s.flagE) ra s

/-- JLT ra (41_flags_jumps.md R94). -/
def execJlt (ra : Byte) (s : State) : Result := jumpWhen s.flagL ra s

end Sys2Proof.Machine
end

