-- ==== Sys2Proof/Machine/Stack.lean ====
section
/-! DEFINITION. PUSH, POP, CALL, RET (42_stack.md R102 to R105). -/

namespace Sys2Proof.Machine

/-- PUSH ra (42_stack.md R102): x[ra] is read after the decrement. -/
def execPush (ra : Byte) (s : State) : Result :=
  withReg ra s fun a => withNextPc 1 s fun next => withStackRoom s
    (.next ((pushWith s fun s => s.x a).setPc next))

/-- POP ra (42_stack.md R103): the register is written before SP is tested and incremented. -/
def execPop (ra : Byte) (s : State) : Result :=
  withReg ra s fun a => sequential 1 s fun s => dropTop (s.setX a (stackTop s))

/-- CALL ra (42_stack.md R104): x[ra] is read after the push of the return address. -/
def execCall (ra : Byte) (s : State) : Result :=
  withReg ra s fun a => withNextPc 1 s fun ret => withStackRoom s
    (let s := pushByte ret s
     .next (s.setPc (s.x a)))

/-- RET (42_stack.md R105). -/
def execRet (s : State) : Result := .next (popPc s)

end Sys2Proof.Machine
end

