-- ==== Sys2Proof/Machine/Cycle.lean ====
section
/-! DEFINITION. The cycle (43_dispatch_loop.md R120): phases A1, A2 and B, and what withFetchWord sets. -/

namespace Sys2Proof.Machine

/-- Phase B: fetch, decode, execute, with the checks in the order of 43_dispatch_loop.md R128. HLT is one of the 17
rows and has no operand, so the halt check of R123 is its decoding. -/
def executePhase (s : State) : Result :=
  match fetch s with
  | none => raiseAddressOutOfRange s
  | some (ir, opa, opb) =>
    match decode ir opa opb with
    | .error (.illegalInstruction b) => raise .illegalInstruction (some b.toNat) s
    | .error (.registerOutOfRange b) => raiseRegisterOutOfRange b s
    | .ok i => exec i s

/-- One cycle of a running machine: a fault of phase A2 ends it (60_exceptions.md R158), else phase B runs in the same
cycle at the pc phase A2 left (43_dispatch_loop.md R120). -/
def performCycle (s : State) : Result :=
  let s := interruptPhase s
  match s.run with
  | .running => executePhase s
  | _ => .next s

/-- Where withFetchWord puts an instruction: at pc where all three bytes of a window that can complete fit, else at 0. -/
def fetchPlace (s : State) : Byte := if s.pc.toNat + 3 < Config.memSize then s.pc else 0

/-- Everything that must hold for the next cycle to fetch and run the three bytes given: they stand at pc, the machine is
running, the cycle's inputs are idle and no pending line is enabled (log 11). -/
def placeInstruction (s : State) (ir opa opb : Byte) : State :=
  let p := fetchPlace s
  let s := s.setX .is (s.x .is &&& ~~~(s.x .im))
  { s with
    mem := ((s.mem.write p ir).write (p + 1) opa).write (p + 2) opb
    pc := p
    run := .running
    inputs := { tick := false, irq := 0 } :: s.inputs }

end Sys2Proof.Machine
end

