-- ==== Sys2Proof/Machine/Step.lean ====
section
/-! DEFINITION. One step (43_dispatch_loop.md R120, R140), the run loop (R141), and placing an instruction where the next
step fetches. -/

namespace Sys2Proof.Machine

/-- `step()`: one cycle; "If RUN is Halted or Faulted, `step` does nothing" (43_dispatch_loop.md R140). -/
def step (s : State) : Host.Outcome State Fault Refusal :=
  match s.run with
  | .running => performCycle s
  | _ => .next s

/-- `run()`: "loop `step()` until `Halted` or fatal error" (43_dispatch_loop.md R141), for at most the number of cycles
given. -/
def run : Nat → State → Result
  | 0, s => .next s
  | k + 1, s =>
    match s.run with
    | .running =>
      match step s with
      | .next t => run k t
      | o => o
    | _ => .next s

/-- `s` with the instruction whose `nbits` bits are `w` placed where the next step fetches (log 11). -/
def State.withFetchWord (s : State) (nbits w : Nat) : State :=
  placeInstruction s (tableByte nbits w 0) (tableByte nbits w 1) (tableByte nbits w 2)

end Sys2Proof.Machine
end

