-- ==== Sys2Proof/Safety.lean ====
section
/-! DEFINITION. The terms claims use: what a fault leaves, what an instruction may change, a legal fault record, the
machine's invariant, and a clean end of a run. -/

namespace Sys2Proof.Machine

/-- A run that has met no fault; "A run that ends Faulted is not a clean end" (43_dispatch_loop.md R143). -/
def State.safe (s : State) : Bool :=
  match s.run with
  | .faulted _ => false
  | _ => true

/-- What a fault leaves, written out: RUN is Faulted(kind, pc, opcode, info) with the opcode byte at pc, and nothing else
has changed (00_scope.md R7, 10_state.md R20). -/
def State.stoppedBy (s : State) (k : FaultKind) (info : Option Nat) : State :=
  { s with run := .faulted { kind := k, pc := s.pc, opcode := s.mem.read s.pc, info := info } }

/-- Every register but those listed is unchanged. -/
def SameRegsBut (rs : List Reg) (s t : State) : Prop := ∀ r, r ∉ rs → t.x r = s.x r

/-- Every byte of MEM but those at the addresses listed reads as before. -/
def SameMemBut (as : List Byte) (s t : State) : Prop := ∀ a, a ∉ as → t.mem.read a = s.mem.read a

/-- RUN and the inputs still to come are unchanged. -/
def SameRunAndInputs (s t : State) : Prop := t.run = s.run ∧ t.inputs = s.inputs ∧ t.cycle = s.cycle

/-- The opcode bytes of 30_encoding.md R54. -/
def opcodeBytes : List Byte :=
  [0x00, 0x01, 0x11, 0x13, 0x45, 0x46, 0x47, 0x50, 0x54, 0x55, 0x56, 0x58, 0x82, 0x84, 0xA0, 0xA2, 0xA7]

/-- The opcode bytes whose first operand byte is a register index: formats R, RR and RI (30_encoding.md R51). -/
def firstOperandIsRegister : List Byte :=
  [0x45, 0x46, 0x47, 0x50, 0x54, 0x55, 0x56, 0x58, 0x82, 0x84, 0xA0, 0xA2, 0xA7]

/-- The opcode bytes whose second operand byte is a register index: format RR (30_encoding.md R51). -/
def secondOperandIsRegister : List Byte := [0x84, 0xA0, 0xA2, 0xA7]

/-- The opcode bytes of 3-byte instructions (30_encoding.md R51). -/
def threeByteOpcodes : List Byte := [0x82, 0x84, 0xA0, 0xA2, 0xA7]

end Sys2Proof.Machine

namespace Sys2Proof

/-- The operand bytes of the registers an instruction writes, the column "writes" of 10_state.md R13. -/
def Instr.writes : Instr → List Byte
  | .ldi ra _ | .add ra _ | .mul ra _ => [ra]
  | .pop ra => [ra, 7]
  | .push _ | .call _ | .ret => [7]
  | .iret => [6, 5, 4, 3, 2, 1, 0, 7]
  | .prn _ | .cmp _ _ | .st _ _ | .jmp _ | .jeq _ | .jne _ | .jlt _ | .hlt | .nop => []

/-- The address an instruction stores to, the column "writes" of 20_memory.md R38, computed as its meaning computes it. -/
def Instr.storesTo (i : Instr) (s : Machine.State) : List Byte :=
  match i with
  | .st ra _ =>
    match Reg.ofByte? ra with
    | some a => [s.x a]
    | none => []
  | .push _ | .call _ => [Machine.pushAddress s]
  | .nop | .hlt | .ret | .iret | .pop _ | .prn _ | .jmp _ | .jeq _ | .jne _ | .jlt _ | .ldi _ _ | .add _ _ | .mul _ _
  | .cmp _ _ => []

end Sys2Proof

namespace Sys2Proof.Machine

/-- A fault record that the machine can hold (60_exceptions.md R150 to R157): the datum its kind has, an opcode byte that
can raise it, and never DivisionByZero. -/
def FaultRecord.Legal (r : FaultRecord) : Prop :=
  match r.kind with
  | .illegalInstruction => r.opcode ∉ opcodeBytes ∧ r.info = some r.opcode.toNat
  | .addressOutOfRange => 253 ≤ r.pc.toNat ∧ r.info = some 256
  | .registerOutOfRange =>
    r.opcode ∈ firstOperandIsRegister ∧ ∃ b : Byte, 8 ≤ b.toNat ∧ r.info = some b.toNat
  | .stackOverflow => r.info = none
  | .divisionByZero => False

/-- What holds of every state a run can reach: MEM is canonical; a halted machine stands at an HLT (43_dispatch_loop.md
R130); a faulted one holds a legal record of its own pc and of the byte there (10_state.md R20). -/
def State.Inv (s : State) : Prop :=
  s.mem.wf = true ∧
  match s.run with
  | .running => True
  | .halted => s.mem.read s.pc = 0x01
  | .faulted r => r.Legal ∧ r.pc = s.pc ∧ r.opcode = s.mem.read s.pc

end Sys2Proof.Machine
end

