-- ==== Sys2Proof/Certificates/Slice0/Obligations.lean ====
section
/-! DEFINITION. The statements for the provers. -/

open Sys2Proof Sys2Proof.Machine

/-! ## Encoding -/

/-- Decoding the bytes of a well-formed instruction gives it back, whatever bytes follow it (30_encoding.md R50 to R54,
R57). -/
def Obligations.DecodeOfEncodeIsTheInstruction : Prop :=
  ∀ (i : Instr) (tail : List Byte), i.wf = true → decodeBytes (encode i ++ tail) = .ok i

/-- What the decoder accepts is well formed, and the window begins with its encoding: each word has one meaning. -/
def Obligations.DecodedInstructionIsWellFormedAndEncodesTheWindow : Prop :=
  ∀ (ir opa opb : Byte) (i : Instr), decode ir opa opb = .ok i →
    i.wf = true ∧ encode i = [ir, opa, opb].take (encode i).length

/-- The decoder refuses a window for exactly the two reasons of R127 and R125, and the opcode first. -/
def Obligations.DecoderRefusesExactlyIllegalOpcodesAndBadRegisters : Prop :=
  ∀ ir opa opb : Byte,
    (decode ir opa opb = .error (.illegalInstruction ir) ↔ ir ∉ opcodeBytes) ∧
    (∀ b : Byte, decode ir opa opb = .error (.registerOutOfRange b) ↔
      (ir ∈ firstOperandIsRegister ∧ 8 ≤ opa.toNat ∧ b = opa) ∨
      (ir ∈ secondOperandIsRegister ∧ opa.toNat < 8 ∧ 8 ≤ opb.toNat ∧ b = opb))

/-- A few words of 30_encoding.md R54 decode to the instructions they stand for. -/
def Obligations.SampleWordsDecode : Prop :=
  decode 0b10000010 0b00000000 0b00001000 = .ok (.ldi 0 8) ∧
  decode 0b10100000 0b00000000 0b00000001 = .ok (.add 0 1) ∧
  decode 0b01000111 0b00000000 0b00000001 = .ok (.prn 0) ∧
  decode 0b00010011 0b11111111 0b11111111 = .ok .iret ∧
  decode 0b01011000 0b00000010 0b11111111 = .ok (.jlt 2)

/-! ## The ALU block -/

/-- The six operations of the ALU (40_alu.md R71 to R76), and the fault its DivisionByZero raises where an instruction
would run it (60_exceptions.md R157); no opcode does (log 8). The direction of CMP, and Divide and Modulo, are the spec's
own decisions D11, D12 (log 10). That DivisionByZero is raised at every pc, at 253 before AddressOutOfRange(256) too, is
the model's choice (DESIGN CHOICE, log 8): R128 and R158 do not place it. -/
def Obligations.AluComputesItsSixOperations : Prop :=
  (∀ a b : Byte,
    (∃ v, alu .add a b = .byte v ∧ v.toNat = (a.toNat + b.toNat) % 256) ∧
    (∃ v, alu .subtract a b = .byte v ∧
      v.toNat = if b.toNat ≤ a.toNat then a.toNat - b.toNat else a.toNat + 256 - b.toNat) ∧
    (∃ v, alu .multiply a b = .byte v ∧ v.toNat = (a.toNat * b.toNat) % 256) ∧
    (b = 0 → alu .divide a b = .divisionByZero ∧ alu .modulo a b = .divisionByZero) ∧
    (b ≠ 0 → ∃ q m, alu .divide a b = .byte q ∧ alu .modulo a b = .byte m ∧
      a.toNat = q.toNat * b.toNat + m.toNat ∧ m.toNat < b.toNat) ∧
    (a = b → alu .compare a b = .flags 0b001) ∧
    (b.toNat < a.toNat → alu .compare a b = .flags 0b010) ∧
    (a.toNat < b.toNat → alu .compare a b = .flags 0b100)) ∧
  (∀ (s : State) (a b : Reg), s.x b = 0 →
    aluInstruction .divide a.byte b.byte s = .next (s.stoppedBy .divisionByZero none) ∧
    aluInstruction .modulo a.byte b.byte s = .next (s.stoppedBy .divisionByZero none))

/-! ## The instructions, each by its rule -/

/-- ADD and MUL (40_alu.md R81, R82): encoding, faults in their order, result, everything else unchanged. -/
def Obligations.AddAndMulFollowTheirRules : Prop :=
  ∀ (s : State) (ra rb : Byte) (i : Instr) (opcode : Byte) (f : Nat → Nat → Nat),
    (i, opcode, f) ∈ [(Instr.add ra rb, (0xA0 : Byte), Nat.add), (Instr.mul ra rb, (0xA2 : Byte), Nat.mul)] →
    encode i = [opcode, ra, rb] ∧
    (8 ≤ ra.toNat → exec i s = .next (s.stoppedBy .registerOutOfRange (some ra.toNat))) ∧
    (ra.toNat < 8 → 8 ≤ rb.toNat → exec i s = .next (s.stoppedBy .registerOutOfRange (some rb.toNat))) ∧
    (∀ a b : Reg, ra = a.byte → rb = b.byte →
      (s.pc = 253 → exec i s = .next (s.stoppedBy .addressOutOfRange (some 256))) ∧
      (s.pc.toNat < 253 → ∃ t, exec i s = .next t ∧
        (t.x a).toNat = f (s.x a).toNat (s.x b).toNat % 256 ∧ SameRegsBut [a] s t ∧
        t.pc.toNat = s.pc.toNat + 3 ∧ t.fl = s.fl ∧ SameMemBut [] s t ∧ t.out = s.out ∧ SameRunAndInputs s t))

/-- CMP (40_alu.md R83); and no instruction but CMP and IRET changes FL. -/
def Obligations.CmpFollowsItsRule : Prop :=
  (∀ (s : State) (ra rb : Byte),
    encode (.cmp ra rb) = [0xA7, ra, rb] ∧
    (8 ≤ ra.toNat → exec (.cmp ra rb) s = .next (s.stoppedBy .registerOutOfRange (some ra.toNat))) ∧
    (ra.toNat < 8 → 8 ≤ rb.toNat →
      exec (.cmp ra rb) s = .next (s.stoppedBy .registerOutOfRange (some rb.toNat))) ∧
    (∀ a b : Reg, ra = a.byte → rb = b.byte →
      (s.pc = 253 → exec (.cmp ra rb) s = .next (s.stoppedBy .addressOutOfRange (some 256))) ∧
      (s.pc.toNat < 253 → ∃ t, exec (.cmp ra rb) s = .next t ∧
        (s.x a = s.x b → t.fl = 0b001) ∧
        ((s.x b).toNat < (s.x a).toNat → t.fl = 0b010) ∧
        ((s.x a).toNat < (s.x b).toNat → t.fl = 0b100) ∧
        SameRegsBut [] s t ∧ t.pc.toNat = s.pc.toNat + 3 ∧
        SameMemBut [] s t ∧ t.out = s.out ∧ SameRunAndInputs s t))) ∧
  (∀ (i : Instr) (s t : State), exec i s = .next t → i.mnemonic ∉ [Mnemonic.cmp, .iret] → t.fl = s.fl)

/-- LDI (43_dispatch_loop.md R132). -/
def Obligations.LdiFollowsItsRule : Prop :=
  ∀ (s : State) (ra imm : Byte),
    encode (.ldi ra imm) = [0x82, ra, imm] ∧
    (8 ≤ ra.toNat → exec (.ldi ra imm) s = .next (s.stoppedBy .registerOutOfRange (some ra.toNat))) ∧
    (∀ a : Reg, ra = a.byte →
      (s.pc = 253 → exec (.ldi ra imm) s = .next (s.stoppedBy .addressOutOfRange (some 256))) ∧
      (s.pc.toNat < 253 → ∃ t, exec (.ldi ra imm) s = .next t ∧
        t.x a = imm ∧ SameRegsBut [a] s t ∧ t.pc.toNat = s.pc.toNat + 3 ∧ t.fl = s.fl ∧
        SameMemBut [] s t ∧ t.out = s.out ∧ SameRunAndInputs s t))

/-- PRN (43_dispatch_loop.md R133). -/
def Obligations.PrnFollowsItsRule : Prop :=
  ∀ (s : State) (ra : Byte),
    encode (.prn ra) = [0x47, ra] ∧
    (8 ≤ ra.toNat → exec (.prn ra) s = .next (s.stoppedBy .registerOutOfRange (some ra.toNat))) ∧
    (∀ a : Reg, ra = a.byte → s.pc.toNat ≤ 253 → ∃ t, exec (.prn ra) s = .next t ∧
      t.out = s.out ++ [s.x a] ∧ t.pc.toNat = s.pc.toNat + 2 ∧ SameRegsBut [] s t ∧ t.fl = s.fl ∧
      SameMemBut [] s t ∧ SameRunAndInputs s t)

/-- ST (43_dispatch_loop.md R134). -/
def Obligations.StFollowsItsRule : Prop :=
  ∀ (s : State) (ra rb : Byte), s.mem.wf = true →
    encode (.st ra rb) = [0x84, ra, rb] ∧
    (8 ≤ ra.toNat → exec (.st ra rb) s = .next (s.stoppedBy .registerOutOfRange (some ra.toNat))) ∧
    (ra.toNat < 8 → 8 ≤ rb.toNat →
      exec (.st ra rb) s = .next (s.stoppedBy .registerOutOfRange (some rb.toNat))) ∧
    (∀ a b : Reg, ra = a.byte → rb = b.byte →
      (s.pc = 253 → exec (.st ra rb) s = .next (s.stoppedBy .addressOutOfRange (some 256))) ∧
      (s.pc.toNat < 253 → ∃ t, exec (.st ra rb) s = .next t ∧
        t.mem.read (s.x a) = s.x b ∧ SameMemBut [s.x a] s t ∧ SameRegsBut [] s t ∧
        t.pc.toNat = s.pc.toNat + 3 ∧ t.fl = s.fl ∧ t.out = s.out ∧ SameRunAndInputs s t))

/-- JMP, JEQ, JNE and JLT (41_flags_jumps.md R91 to R95): each with the condition its rule reads of FL;
the check of the register byte of an untaken jump is the spec's own decision D10 (log 10). -/
def Obligations.JumpsFollowTheirRules : Prop :=
  ∀ (s : State) (ra : Byte) (i : Instr) (opcode : Byte) (taken : Bool),
    (i, opcode, taken) ∈
      [(Instr.jmp ra, (0x54 : Byte), true), (Instr.jeq ra, (0x55 : Byte), s.fl.getLsbD 0),
       (Instr.jne ra, (0x56 : Byte), !s.fl.getLsbD 0), (Instr.jlt ra, (0x58 : Byte), s.fl.getLsbD 2)] →
    encode i = [opcode, ra] ∧
    (8 ≤ ra.toNat → exec i s = .next (s.stoppedBy .registerOutOfRange (some ra.toNat))) ∧
    (∀ a : Reg, ra = a.byte → s.pc.toNat ≤ 253 → ∃ t, exec i s = .next t ∧
      (taken = true → t.pc = s.x a) ∧ (taken = false → t.pc.toNat = s.pc.toNat + 2) ∧
      SameRegsBut [] s t ∧ t.fl = s.fl ∧ SameMemBut [] s t ∧ t.out = s.out ∧ SameRunAndInputs s t)

/-- The table of 41_flags_jumps.md R96: which jump is taken right after a CMP, and where FL is 0b000,
as it is after reset and after interrupt entry. -/
def Obligations.ConditionalJumpsFollowTheRelation : Prop :=
  ∀ (s t : State) (a b c : Reg),
    (s.pc.toNat < 251 → exec (.cmp a.byte b.byte) s = .next t →
      let goesTo (i : Instr) (target : Byte) : Prop := ∃ u, exec i t = .next u ∧ u.pc = target ∧ u.run = s.run
      (s.x a = s.x b → goesTo (.jeq c.byte) (s.x c) ∧ goesTo (.jne c.byte) (s.pc + 5) ∧
        goesTo (.jlt c.byte) (s.pc + 5)) ∧
      ((s.x b).toNat < (s.x a).toNat → goesTo (.jeq c.byte) (s.pc + 5) ∧ goesTo (.jne c.byte) (s.x c) ∧
        goesTo (.jlt c.byte) (s.pc + 5)) ∧
      ((s.x a).toNat < (s.x b).toNat → goesTo (.jeq c.byte) (s.pc + 5) ∧ goesTo (.jne c.byte) (s.x c) ∧
        goesTo (.jlt c.byte) (s.x c))) ∧
    (s.pc.toNat ≤ 253 → s.fl = 0b000 →
      let goesTo (i : Instr) (target : Byte) : Prop := ∃ u, exec i s = .next u ∧ u.pc = target ∧ u.run = s.run
      goesTo (.jeq c.byte) (s.pc + 2) ∧ goesTo (.jne c.byte) (s.x c) ∧ goesTo (.jlt c.byte) (s.pc + 2)) ∧
    State.reset.fl = 0b000 ∧ (∀ i : Line, 9 ≤ (s.x .sp).toNat → (enterInterrupt i s).fl = 0b000)

/-- PUSH (42_stack.md R102); PUSH R7 stores the already decremented SP. StackOverflow and PUSH R7 are the spec's own
decisions D7, D9 (log 10). -/
def Obligations.PushFollowsItsRule : Prop :=
  ∀ (s : State) (ra : Byte), s.mem.wf = true →
    encode (.push ra) = [0x45, ra] ∧
    (8 ≤ ra.toNat → exec (.push ra) s = .next (s.stoppedBy .registerOutOfRange (some ra.toNat))) ∧
    (∀ a : Reg, ra = a.byte → s.pc.toNat ≤ 253 →
      (s.x .sp = 0 → exec (.push ra) s = .next (s.stoppedBy .stackOverflow none)) ∧
      (s.x .sp ≠ 0 → ∃ t, exec (.push ra) s = .next t ∧
        (t.x .sp).toNat = (s.x .sp).toNat - 1 ∧ SameRegsBut [.sp] s t ∧
        t.mem.read (pushAddress s) = (if a = .sp then t.x .sp else s.x a) ∧ t.x .sp = pushAddress s ∧
        SameMemBut [pushAddress s] s t ∧
        t.pc.toNat = s.pc.toNat + 2 ∧ t.fl = s.fl ∧ t.out = s.out ∧ SameRunAndInputs s t))

/-- POP (42_stack.md R103): the clamp at 0xFF, POP R7 (the spec's own decision D9, log 10), and the round trip with
PUSH. -/
def Obligations.PopFollowsItsRule : Prop :=
  (∀ (s : State) (ra : Byte),
    encode (.pop ra) = [0x46, ra] ∧
    (8 ≤ ra.toNat → exec (.pop ra) s = .next (s.stoppedBy .registerOutOfRange (some ra.toNat))) ∧
    (∀ a : Reg, ra = a.byte → s.pc.toNat ≤ 253 → ∃ t, exec (.pop ra) s = .next t ∧
      (a ≠ .sp → t.x a = s.mem.read (s.x .sp) ∧ (t.x .sp).toNat = min ((s.x .sp).toNat + 1) 255) ∧
      (a = .sp → (t.x .sp).toNat = min ((s.mem.read (s.x .sp)).toNat + 1) 255) ∧
      SameRegsBut [a, .sp] s t ∧ SameMemBut [] s t ∧
      t.pc.toNat = s.pc.toNat + 2 ∧ t.fl = s.fl ∧ t.out = s.out ∧ SameRunAndInputs s t)) ∧
  (∀ (s : State) (a b : Reg), s.mem.wf = true → s.x .sp ≠ 0 → a ≠ .sp → b ≠ .sp → s.pc.toNat < 252 →
    ∃ t u, exec (.push a.byte) s = .next t ∧ exec (.pop b.byte) t = .next u ∧ u.x b = s.x a ∧ u.x .sp = s.x .sp)

/-- CALL (42_stack.md R104); CALL R7 jumps to the decremented SP. StackOverflow and CALL R7 are the spec's own
decisions D7, D9 (log 10). -/
def Obligations.CallFollowsItsRule : Prop :=
  ∀ (s : State) (ra : Byte), s.mem.wf = true →
    encode (.call ra) = [0x50, ra] ∧
    (8 ≤ ra.toNat → exec (.call ra) s = .next (s.stoppedBy .registerOutOfRange (some ra.toNat))) ∧
    (∀ a : Reg, ra = a.byte → s.pc.toNat ≤ 253 →
      (s.x .sp = 0 → exec (.call ra) s = .next (s.stoppedBy .stackOverflow none)) ∧
      (s.x .sp ≠ 0 → ∃ t, exec (.call ra) s = .next t ∧
        (t.x .sp).toNat = (s.x .sp).toNat - 1 ∧ SameRegsBut [.sp] s t ∧
        (t.mem.read (pushAddress s)).toNat = s.pc.toNat + 2 ∧ t.x .sp = pushAddress s ∧
        SameMemBut [pushAddress s] s t ∧
        t.pc = (if a = .sp then t.x .sp else s.x a) ∧ t.fl = s.fl ∧ t.out = s.out ∧ SameRunAndInputs s t))

/-- RET (42_stack.md R105), and the round trip with CALL: a subroutine that leaves SP and the cell at SP as CALL left them
returns to the instruction after the CALL with the stack depth unchanged. -/
def Obligations.RetFollowsItsRule : Prop :=
  (∀ s : State,
    encode .ret = [0x11] ∧
    ∃ t, exec .ret s = .next t ∧
      t.pc = s.mem.read (s.x .sp) ∧ (t.x .sp).toNat = min ((s.x .sp).toNat + 1) 255 ∧
      SameRegsBut [.sp] s t ∧ SameMemBut [] s t ∧ t.fl = s.fl ∧ t.out = s.out ∧ SameRunAndInputs s t) ∧
  (∀ (s t u : State) (a : Reg), s.mem.wf = true → s.x .sp ≠ 0 → s.pc.toNat ≤ 253 →
    exec (.call a.byte) s = .next t → u.x .sp = t.x .sp → u.mem.read (u.x .sp) = t.mem.read (t.x .sp) →
    ∃ v, exec .ret u = .next v ∧ v.pc.toNat = s.pc.toNat + 2 ∧ v.x .sp = s.x .sp)

/-- NOP (43_dispatch_loop.md R131). -/
def Obligations.NopFollowsItsRule : Prop :=
  ∀ s : State,
    encode .nop = [0x00] ∧
    (s.pc.toNat ≤ 253 → ∃ t, exec .nop s = .next t ∧
      t.pc.toNat = s.pc.toNat + 1 ∧ SameRegsBut [] s t ∧ t.fl = s.fl ∧ SameMemBut [] s t ∧ t.out = s.out ∧
      SameRunAndInputs s t)

/-- HLT (43_dispatch_loop.md R130): RUN is Halted and nothing else changes; the fetch fault and an eligible interrupt of
the same cycle come first; once halted, no cycle changes anything. -/
def Obligations.HltFollowsItsRule : Prop :=
  ∀ s : State,
    encode .hlt = [0x01] ∧
    exec .hlt s = .next { s with run := .halted } ∧
    (s.run = .running → (interruptPhase s).run = .running →
      ((interruptPhase s).pc.toNat ≤ 253 → (interruptPhase s).mem.read (interruptPhase s).pc = 0x01 →
        step s = .next { interruptPhase s with run := .halted }) ∧
      (253 < (interruptPhase s).pc.toNat →
        step s = .next ((interruptPhase s).stoppedBy .addressOutOfRange (some 256)))) ∧
    (s.run = .halted → step s = .next s)

/-- IRET (60_exceptions.md R180): the k-th of the nine pops reads the byte at SP + k, or at 0xFF once SP has reached it;
x[6] down to x[0], then FL from the low three bits, then pc; a line pending and enabled in the restored registers is taken
at the top of the next cycle. -/
def Obligations.IretFollowsItsRule : Prop :=
  ∀ s : State,
    let popped (k : Nat) : Byte := s.mem.read (BitVec.ofNat 8 (min ((s.x .sp).toNat + k) 255))
    encode .iret = [0x13] ∧
    ∃ t, exec .iret s = .next t ∧
      t.x .r6 = popped 0 ∧ t.x .r5 = popped 1 ∧ t.x .r4 = popped 2 ∧ t.x .r3 = popped 3 ∧ t.x .r2 = popped 4 ∧
      t.x .r1 = popped 5 ∧ t.x .r0 = popped 6 ∧ t.fl.toNat = (popped 7).toNat % 8 ∧ t.pc = popped 8 ∧
      (t.x .sp).toNat = min ((s.x .sp).toNat + 9) 255 ∧
      SameMemBut [] s t ∧ t.out = s.out ∧ SameRunAndInputs s t ∧
      (∀ i : Line, (t.x .im).getLsbD i.val = true → (t.x .is).getLsbD i.val = true →
        ∃ j : Line, j ≤ i ∧ interruptPhase t = enterInterrupt j (sample t))

/-! ## Frames over all instructions -/

/-- The column "writes" of 10_state.md R13: an instruction leaves every other register unchanged. -/
def Obligations.InstructionsWriteOnlyTheirRegisters : Prop :=
  ∀ (i : Instr) (s t : State), exec i s = .next t → ∀ r : Reg, r.byte ∉ i.writes → t.x r = s.x r

/-- The column "writes" of 20_memory.md R38: an instruction leaves every byte of MEM unchanged but the one it stores to. -/
def Obligations.InstructionsStoreOnlyWhereTheirRulesSay : Prop :=
  ∀ (i : Instr) (s t : State), exec i s = .next t →
    ∀ a : Byte, a ∉ i.storesTo s → t.mem.read a = s.mem.read a

/-- 10_state.md R18, R21: of the instructions only CMP and IRET change FL, only PRN changes OUT, and none touches the
inputs. -/
def Obligations.InstructionsKeepFlagsOutputAndInputs : Prop :=
  ∀ (i : Instr) (s t : State), exec i s = .next t →
    (i.mnemonic ∉ [Mnemonic.cmp, Mnemonic.iret] → t.fl = s.fl) ∧
    (i.mnemonic ≠ Mnemonic.prn → t.out = s.out) ∧
    t.inputs = s.inputs ∧ t.cycle = s.cycle

/-- 43_dispatch_loop.md R126: the instructions that do not write pc themselves advance it by the length of their encoding,
and a 3-byte one at pc = 253 faults with no effect (the spec's own decision D4, log 10). -/
def Obligations.SequentialInstructionsAdvanceByTheirWidth : Prop :=
  ∀ (i : Instr) (s : State), i.wf = true → s.pc.toNat ≤ 253 →
    i.mnemonic ∈ [Mnemonic.nop, .ldi, .prn, .add, .mul, .cmp, .push, .pop, .st] →
    (s.pc.toNat + (encode i).length = 256 → exec i s = .next (s.stoppedBy .addressOutOfRange (some 256))) ∧
    (s.pc.toNat + (encode i).length < 256 → (i.mnemonic = .push → s.x .sp ≠ 0) →
      ∃ t, exec i s = .next t ∧ t.pc.toNat = s.pc.toNat + (encode i).length ∧ t.run = s.run)

/-- 00_scope.md R7: an instruction that ends Faulted has made no write, and the record names its pc and opcode byte. -/
def Obligations.FaultingInstructionsWriteNothing : Prop :=
  ∀ (i : Instr) (s t : State) (r : FaultRecord), s.run = .running → exec i s = .next t → t.run = .faulted r →
    t = s.stoppedBy r.kind r.info ∧ r.pc = s.pc ∧ r.opcode = s.mem.read s.pc

/-! ## Memory and the stack primitives -/

/-- 20_memory.md R31: "a cell holds the last byte written to it", and a write leaves every other cell alone and the
memory canonical. -/
def Obligations.MemoryHoldsTheLastByteWritten : Prop :=
  ∀ (m : Memory) (a v b : Byte), m.wf = true →
    (m.write a v).read b = (if b = a then v else m.read b) ∧ (m.write a v).wf = true

/-- Equal contents are equal data: two canonical memories that read alike at every address are the same list. -/
def Obligations.CanonicalMemoriesThatReadAlikeAreEqual : Prop :=
  ∀ m n : Memory, m.wf = true → n.wf = true → (∀ a : Byte, m.read a = n.read a) → m = n

/-- 20_memory.md R42: a store is what the next fetch at that address returns. -/
def Obligations.StoreIsSeenByTheNextFetch : Prop :=
  ∀ (s t : State) (a b : Reg), s.mem.wf = true → s.pc.toNat < 251 → exec (.st a.byte b.byte) s = .next t →
    ∃ ir opa opb, fetch t = some (ir, opa, opb) ∧
      (s.x a = t.pc → ir = s.x b) ∧ (s.x a = t.pc + 1 → opa = s.x b) ∧ (s.x a = t.pc + 2 → opb = s.x b)

/-! ## Interrupts -/

/-- 60_exceptions.md R171: phase A1 ORs the inputs into x[6] and changes nothing else of the machine. The inputs come from
the model's own fields, the next of `inputs` where there is one (log 2). -/
def Obligations.SamplingOrsTheInputsIntoStatus : Prop :=
  ∀ (s : State) (i : CycleInput) (rest : List CycleInput), s.inputs = i :: rest →
    (sample s).x .is = s.x .is ||| i.irq ||| (if i.tick then 0x01 else 0x00) ∧
    (sample s).inputs = rest ∧
    SameRegsBut [.is] s (sample s) ∧ SameMemBut [] s (sample s) ∧ (sample s).pc = s.pc ∧ (sample s).fl = s.fl ∧
    (sample s).run = s.run ∧ (sample s).out = s.out

/-- 60_exceptions.md R171, R22: sampling never clears a pending bit, and sets none that no input asks for, whatever the
free inputs are; with `irq` idle only line 0 can appear. -/
def Obligations.SamplingNeverClearsAPendingBit : Prop :=
  ∀ (s : State) (i : Line),
    ((s.x .is).getLsbD i.val = true → ((sample s).x .is).getLsbD i.val = true) ∧
    (s.nextInput.irq = 0 → i ≠ 0 → ((sample s).x .is).getLsbD i.val = (s.x .is).getLsbD i.val)

/-- 60_exceptions.md R172, R173: with no line eligible phase A2 does nothing; otherwise the lowest is taken, and every
other pending bit stays set in the saved copy of x[6]. -/
def Obligations.LowestEligibleLineIsTaken : Prop :=
  ∀ s : State,
    (s.x .im &&& s.x .is = 0 → arbitrate s = s) ∧
    (∀ i : Line, (s.x .im &&& s.x .is).getLsbD i.val = true →
      (∀ j : Line, j < i → (s.x .im &&& s.x .is).getLsbD j.val = false) →
      arbitrate s = enterInterrupt i s ∧
      (s.mem.wf = true → 9 ≤ (s.x .sp).toNat → ∀ k : Line, k ≠ i →
        ((arbitrate s).mem.read ((arbitrate s).x .sp)).getLsbD k.val = (s.x .is).getLsbD k.val))

/-- 60_exceptions.md R174 to R176: the check of the stack's room, the nine-byte frame, what is zeroed, and the vector read
after the pushes. The check of room and the order of the registers are the spec's own decisions D7, D17 (log 10). -/
def Obligations.InterruptEntryPushesItsFrame : Prop :=
  ∀ (s : State) (i : Line), s.mem.wf = true →
    ((s.x .sp).toNat < 9 → enterInterrupt i s = s.stoppedBy .stackOverflow none) ∧
    (9 ≤ (s.x .sp).toNat →
      let frame : List Byte :=
        [s.pc, BitVec.ofNat 8 s.fl.toNat, s.x .r0, s.x .r1, s.x .r2, s.x .r3, s.x .r4, s.x .r5,
          s.x .r6 &&& ~~~(1#8 <<< i.val)]
      let t := enterInterrupt i s
      (∀ k (_ : k < 9), t.mem.read (BitVec.ofNat 8 ((s.x .sp).toNat - 1 - k)) = frame.getD k 0) ∧
      (∀ a : Byte, a.toNat < (s.x .sp).toNat - 9 ∨ (s.x .sp).toNat ≤ a.toNat → t.mem.read a = s.mem.read a) ∧
      (∀ r : Reg, r ≠ .sp → t.x r = 0) ∧ (t.x .sp).toNat = (s.x .sp).toNat - 9 ∧ t.fl = 0b000 ∧
      t.pc = t.mem.read (BitVec.ofNat 8 (0xF8 + i.val)) ∧ t.out = s.out ∧ SameRunAndInputs s t)

/-- 60_exceptions.md R181: a routine that executes IRET with SP and the nine frame cells as entry left them restores pc,
FL and x[0..5], brings x[6] back with bit i cleared, and gives SP back. -/
def Obligations.InterruptRoundTrip : Prop :=
  ∀ (s u : State) (i : Line), s.mem.wf = true → 9 ≤ (s.x .sp).toNat →
    u.x .sp = (enterInterrupt i s).x .sp →
    (∀ k (_ : k < 9), u.mem.read (BitVec.ofNat 8 ((s.x .sp).toNat - 9 + k)) =
      (enterInterrupt i s).mem.read (BitVec.ofNat 8 ((s.x .sp).toNat - 9 + k))) →
    ∃ v, exec .iret u = .next v ∧ v.pc = s.pc ∧ v.fl = s.fl ∧
      (∀ r : Reg, r ≠ .is → v.x r = s.x r) ∧ v.x .is = s.x .is &&& ~~~(1#8 <<< i.val) ∧
      (∀ a : Byte, v.mem.read a = u.mem.read a)

/-- 60_exceptions.md R183, 70_reset_and_hazards.md R216: what a routine leaves in x[0..6], FL and pc is lost at IRET, the
interrupts raised meanwhile among it: two states with the same SP and the same bytes of MEM end in the same registers,
flags and pc. -/
def Obligations.IretDiscardsLiveRegisters : Prop :=
  ∀ s u : State, s.x .sp = u.x .sp → (∀ a : Byte, s.mem.read a = u.mem.read a) →
    ∃ t v, exec .iret s = .next t ∧ exec .iret u = .next v ∧ t.regs = v.regs ∧ t.fl = v.fl ∧ t.pc = v.pc

/-- 60_exceptions.md R182: a routine is not interrupted before it writes a mask: with x[5] = 0 a cycle samples and takes
no line, whatever the inputs, and entry leaves x[5] = 0. -/
def Obligations.MaskZeroTakesNoInterrupt : Prop :=
  (∀ s : State, s.x .im = 0 → interruptPhase s = sample s) ∧
  (∀ (s : State) (i : Line), 9 ≤ (s.x .sp).toNat → (enterInterrupt i s).x .im = 0)

/-- 60_exceptions.md R178: a line whose bit is set in both x[5] and x[6], with no lower line enabled, is entered within
one cycle: the cycle's instruction is the one at the vector's address. -/
def Obligations.EnabledPendingLineIsEnteredWithinOneCycle : Prop :=
  ∀ (s : State) (i : Line), s.run = .running → s.mem.wf = true → 9 ≤ (s.x .sp).toNat → (s.x .sp).toNat ≤ 0xF8 →
    (s.x .im).getLsbD i.val = true → (s.x .is).getLsbD i.val = true →
    (∀ j : Line, j < i → (s.x .im).getLsbD j.val = false) →
    (interruptPhase s).pc = s.mem.read (BitVec.ofNat 8 (0xF8 + i.val)) ∧
    (interruptPhase s).run = .running ∧ step s = executePhase (interruptPhase s)

/-! ## The cycle -/

/-- 43_dispatch_loop.md R120: when the window at the pc that phases A1 and A2 leave decodes to an instruction, the step is
exec of it at that state. -/
def Obligations.StepRunsTheDecodedInstruction : Prop :=
  ∀ (s : State) (i : Instr),
    let u := interruptPhase s
    s.run = .running → u.run = .running → u.pc.toNat ≤ 253 →
    decode (u.mem.read u.pc) (u.mem.read (u.pc + 1)) (u.mem.read (u.pc + 2)) = .ok i →
    step s = exec i u

/-- 43_dispatch_loop.md R128: what phase B does to RUN, check by check in their order, for every pc and every three
bytes. The checks and their order are the spec's own decisions D3, D4, D7, D10, D21 (log 10). -/
def Obligations.PhaseBChecksInOrder : Prop :=
  ∀ s : State,
    let u := interruptPhase s
    let ir := u.mem.read u.pc
    let opa := u.mem.read (u.pc + 1)
    let opb := u.mem.read (u.pc + 2)
    let badRegister : Prop :=
      (ir ∈ firstOperandIsRegister ∧ 8 ≤ opa.toNat) ∨ (ir ∈ secondOperandIsRegister ∧ 8 ≤ opb.toNat)
    s.run = .running → u.run = .running →
    (253 < u.pc.toNat → step s = .next (u.stoppedBy .addressOutOfRange (some 256))) ∧
    (u.pc.toNat ≤ 253 →
      (ir = 0x01 → step s = .next { u with run := .halted }) ∧
      (ir ∉ opcodeBytes → ∃ info, step s = .next (u.stoppedBy .illegalInstruction info)) ∧
      (ir ∈ firstOperandIsRegister → 8 ≤ opa.toNat →
        step s = .next (u.stoppedBy .registerOutOfRange (some opa.toNat))) ∧
      (ir ∈ secondOperandIsRegister → opa.toNat < 8 → 8 ≤ opb.toNat →
        step s = .next (u.stoppedBy .registerOutOfRange (some opb.toNat))) ∧
      (ir ∈ threeByteOpcodes → ¬ badRegister → u.pc = 253 →
        step s = .next (u.stoppedBy .addressOutOfRange (some 256))) ∧
      (ir ∈ [(0x45 : Byte), 0x50] → ¬ badRegister → u.x .sp = 0 →
        step s = .next (u.stoppedBy .stackOverflow none)) ∧
      (ir ∈ opcodeBytes → ir ≠ 0x01 → ¬ badRegister → ¬ (ir ∈ threeByteOpcodes ∧ u.pc = 253) →
        ¬ (ir ∈ [(0x45 : Byte), 0x50] ∧ u.x .sp = 0) → ∃ t, step s = .next t ∧ t.run = .running))

/-- The model's choice among the spec's passages (log 5): the record of IllegalInstruction holds the opcode byte as its
info, as 60_exceptions.md R150 has it, where 43_dispatch_loop.md R127 writes a dash. -/
def Obligations.IllegalInstructionRecordsTheOpcodeByte : Prop :=
  ∀ s t : State, s.run = .running → (interruptPhase s).run = .running → (interruptPhase s).pc.toNat ≤ 253 →
    (interruptPhase s).mem.read (interruptPhase s).pc ∉ opcodeBytes → step s = .next t →
    ∃ r, t.run = .faulted r ∧ r.kind = .illegalInstruction ∧ r.pc = (interruptPhase s).pc ∧
      r.info = some r.opcode.toNat ∧ r.opcode = (interruptPhase s).mem.read (interruptPhase s).pc

/-- 60_exceptions.md R158 (1), (2): an eligible interrupt comes before the fetch, and a stack without room for its frame
ends the cycle before any fetch, whatever stands at pc. -/
def Obligations.EntryOverflowEndsTheCycleBeforeTheFetch : Prop :=
  ∀ s : State, s.run = .running → (sample s).x .im &&& (sample s).x .is ≠ 0 → (s.x .sp).toNat < 9 →
    step s = .next ((sample s).stoppedBy .stackOverflow none)

/-- 10_state.md R19: Halted and Faulted are absorbing; Running becomes Halted only by an HLT at pc, and Faulted only by a
fault's record on a state the cycle had reached. Faulted is the spec's own decision D20 (log 10). -/
def Obligations.HaltedAndFaultedAreAbsorbing : Prop :=
  (∀ s : State, s.run ≠ .running → step s = .next s) ∧
  (∀ s t : State, s.run = .running → step s = .next t → t.run = .halted →
    t.pc.toNat ≤ 253 ∧ t.mem.read t.pc = 0x01 ∧ t = { interruptPhase s with run := .halted }) ∧
  (∀ (s t : State) (r : FaultRecord), s.run = .running → step s = .next t → t.run = .faulted r →
    t = (sample s).stoppedBy .stackOverflow none ∨ t = (interruptPhase s).stoppedBy r.kind r.info)

/-- No step ever gets stuck: every state has a next state (43_dispatch_loop.md R140, R143). -/
def Obligations.EveryStepAnswersANextState : Prop := ∀ s : State, ∃ t, step s = .next t

/-- 43_dispatch_loop.md R141: `run` is `step` repeated, it always answers, and a run in which RUN has left Running has
ended: it stays as it is however many cycles more it is given. -/
def Obligations.RunRepeatsStepUntilRunLeavesRunning : Prop :=
  (∀ (k : Nat) (s t : State), step s = .next t → run (k + 1) s = run k t) ∧
  (∀ (k : Nat) (s : State), ∃ t, run k s = .next t ∧
    (t.run ≠ .running → ∀ n : Nat, run (k + n) s = .next t))

/-- 10_state.md R21: OUT is empty after reset; a step that runs PRN appends one byte, the register's value, and every other
step leaves OUT alone, so nothing removes a byte; and nothing reads OUT: with another OUT the same step appends the same
bytes and ends in the same state but for OUT. -/
def Obligations.OutputGrowsOnlyByPrn : Prop :=
  State.reset.out = [] ∧
  (∀ (s : State) (a : Reg), s.run = .running → (interruptPhase s).run = .running → (interruptPhase s).pc.toNat ≤ 253 →
    (interruptPhase s).mem.read (interruptPhase s).pc = 0x47 →
    (interruptPhase s).mem.read ((interruptPhase s).pc + 1) = a.byte →
    ∃ t, step s = .next t ∧ t.out = s.out ++ [(interruptPhase s).x a]) ∧
  (∀ s t : State, step s = .next t →
    t.out = s.out ∨
    ∃ a : Reg, (interruptPhase s).mem.read (interruptPhase s).pc = 0x47 ∧
      (interruptPhase s).mem.read ((interruptPhase s).pc + 1) = a.byte ∧
      t.out = s.out ++ [(interruptPhase s).x a]) ∧
  (∀ (s t : State) (out : List Byte), step s = .next t →
    ∃ more : List Byte, t.out = s.out ++ more ∧ step { s with out := out } = .next { t with out := out ++ more })

/-- 10_state.md R18: a step in which no line is taken changes FL only by a CMP or an IRET. -/
def Obligations.FlagsChangeOnlyByCmpIretOrEntry : Prop :=
  ∀ s t : State, step s = .next t → t.fl ≠ s.fl →
    (sample s).x .im &&& (sample s).x .is ≠ 0 ∨
    (interruptPhase s).mem.read (interruptPhase s).pc ∈ [(0xA7 : Byte), 0x13]

/-- 20_memory.md R38, R44: a step in which no line is eligible changes MEM only by ST, PUSH or CALL, and only at the address
the decoded instruction stores to, computed as its meaning computes it at the sampled state; a step that runs no
instruction leaves MEM as it was. -/
def Obligations.MemoryChangesOnlyByStPushCallOrEntry : Prop :=
  ∀ s t : State, step s = .next t → (sample s).x .im &&& (sample s).x .is = 0 →
    (s.mem.read s.pc ∉ [(0x84 : Byte), 0x45, 0x50] → t.mem = s.mem) ∧
    (∀ i : Instr, decode (s.mem.read s.pc) (s.mem.read (s.pc + 1)) (s.mem.read (s.pc + 2)) = .ok i →
      ∀ a : Byte, a ∉ i.storesTo (sample s) → t.mem.read a = s.mem.read a) ∧
    ((∀ i : Instr, decode (s.mem.read s.pc) (s.mem.read (s.pc + 1)) (s.mem.read (s.pc + 2)) ≠ .ok i) →
      t.mem = s.mem) ∧
    (s.run ≠ .running ∨ 253 < s.pc.toNat → t.mem = s.mem)

/-! ## Invariants, reset, load, and placing an instruction -/

/-- Every step keeps the invariant: MEM stays canonical, a halted machine stands at an HLT, and a fault record is one the
spec allows. -/
def Obligations.StepKeepsTheInvariant : Prop :=
  ∀ s t : State, s.Inv → step s = .next t → t.Inv

/-- The state after reset meets the invariant. -/
def Obligations.ResetMeetsTheInvariant : Prop := State.reset.Inv

/-- 10_state.md R26, 70_reset_and_hazards.md R200: the values after reset; the spec decided those of x[0..6], SP, FL and
OUT itself (D5, D6, log 10). -/
def Obligations.ResetHasTheStatedValues : Prop :=
  (∀ a : Byte, State.reset.mem.read a = 0) ∧
  (∀ r : Reg, r ≠ .sp → State.reset.x r = 0) ∧ State.reset.x .sp = 0xF4 ∧
  State.reset.pc = 0 ∧ State.reset.fl = 0b000 ∧ State.reset.run = .running ∧ State.reset.out = []

/-- 70_reset_and_hazards.md R202: a load writes the image from address 0 and leaves the rest; a longer image and a load
after the first cycle are refused. -/
def Obligations.LoadWritesTheImageFromAddressZero : Prop :=
  ∀ (s : State) (image : List Byte), s.mem.wf = true →
    (s.cycle ≠ 0 → s.load image = .refused .loadAfterFirstCycle) ∧
    (s.cycle = 0 → 256 < image.length → s.load image = .refused (.imageOutOfRange image.length)) ∧
    (s.cycle = 0 → image.length ≤ 256 → ∃ t, s.load image = .next t ∧
      (∀ a : Byte, t.mem.read a = if a.toNat < image.length then image.getD a.toNat 0 else s.mem.read a) ∧
      t.mem.wf = true ∧ t = { s with mem := t.mem })

/-- The model's withFetchWord (log 11): from every state with a canonical memory the next step is exec of the placed
instruction after the sampling of idle inputs, and at reset nothing but MEM and the inputs has been changed. -/
def Obligations.PlacedWordIsTheNextInstruction : Prop :=
  (∀ (s : State) (nbits w : Nat) (i : Instr), s.mem.wf = true → decodeTableWord nbits w = some i →
    step (s.withFetchWord nbits w) = exec i (sample (s.withFetchWord nbits w)) ∧
    (sample (s.withFetchWord nbits w)).regs = (s.withFetchWord nbits w).regs ∧
    (sample (s.withFetchWord nbits w)).pc.toNat < 253) ∧
  (∀ nbits w : Nat, State.reset.withFetchWord nbits w =
    { State.reset with
      mem := (State.reset.withFetchWord nbits w).mem
      inputs := [{ tick := false, irq := 0 }] })
end

