-- ==== Sys2Proof/Laws/State.lean ====
section
/-! SUPPORT. What each field of State is after each update of Machine/Ops.lean: one lemma per field per update. -/

namespace Sys2Proof.Machine

variable (s : State)

/-! ## The register file -/

@[simp] theorem Regs.get_set_same (g : Regs) (r : Reg) (v : Byte) : (g.set r v).get r = v := by cases r <;> rfl

@[simp] theorem Regs.get_set_ne (g : Regs) {r q : Reg} (v : Byte) (h : q ≠ r) : (g.set r v).get q = g.get q := by
  cases r <;> cases q <;> first | rfl | exact absurd rfl h

theorem Regs.ext_get {g h : Regs} (e : ∀ r, g.get r = h.get r) : g = h := by
  cases g; cases h
  simp only [Regs.mk.injEq]
  exact ⟨e .r0, e .r1, e .r2, e .r3, e .r4, e .r5, e .r6, e .r7⟩

@[simp] theorem State.x_setX_same (r : Reg) (v : Byte) : (s.setX r v).x r = v := Regs.get_set_same _ _ _

@[simp] theorem State.x_setX_ne {r q : Reg} (v : Byte) (h : q ≠ r) : (s.setX r v).x q = s.x q := Regs.get_set_ne _ _ h

/-! ## The fields after each update -/

@[simp] theorem State.setX_mem (r : Reg) (v : Byte) : (s.setX r v).mem = s.mem := rfl
@[simp] theorem State.setX_regs (r : Reg) (v : Byte) : (s.setX r v).regs = s.regs.set r v := rfl
@[simp] theorem State.setX_pc (r : Reg) (v : Byte) : (s.setX r v).pc = s.pc := rfl
@[simp] theorem State.setX_fl (r : Reg) (v : Byte) : (s.setX r v).fl = s.fl := rfl
@[simp] theorem State.setX_run (r : Reg) (v : Byte) : (s.setX r v).run = s.run := rfl
@[simp] theorem State.setX_out (r : Reg) (v : Byte) : (s.setX r v).out = s.out := rfl
@[simp] theorem State.setX_inputs (r : Reg) (v : Byte) : (s.setX r v).inputs = s.inputs := rfl
@[simp] theorem State.setX_cycle (r : Reg) (v : Byte) : (s.setX r v).cycle = s.cycle := rfl

@[simp] theorem State.setPc_mem (t : Byte) : (s.setPc t).mem = s.mem := rfl
@[simp] theorem State.setPc_regs (t : Byte) : (s.setPc t).regs = s.regs := rfl
@[simp] theorem State.setPc_pc (t : Byte) : (s.setPc t).pc = t := rfl
@[simp] theorem State.setPc_fl (t : Byte) : (s.setPc t).fl = s.fl := rfl
@[simp] theorem State.setPc_run (t : Byte) : (s.setPc t).run = s.run := rfl
@[simp] theorem State.setPc_out (t : Byte) : (s.setPc t).out = s.out := rfl
@[simp] theorem State.setPc_inputs (t : Byte) : (s.setPc t).inputs = s.inputs := rfl
@[simp] theorem State.setPc_cycle (t : Byte) : (s.setPc t).cycle = s.cycle := rfl
@[simp] theorem State.setPc_x (t : Byte) (q : Reg) : (s.setPc t).x q = s.x q := rfl

@[simp] theorem State.setFl_mem (v : FlagBits) : (s.setFl v).mem = s.mem := rfl
@[simp] theorem State.setFl_regs (v : FlagBits) : (s.setFl v).regs = s.regs := rfl
@[simp] theorem State.setFl_pc (v : FlagBits) : (s.setFl v).pc = s.pc := rfl
@[simp] theorem State.setFl_fl (v : FlagBits) : (s.setFl v).fl = v := rfl
@[simp] theorem State.setFl_run (v : FlagBits) : (s.setFl v).run = s.run := rfl
@[simp] theorem State.setFl_out (v : FlagBits) : (s.setFl v).out = s.out := rfl
@[simp] theorem State.setFl_inputs (v : FlagBits) : (s.setFl v).inputs = s.inputs := rfl
@[simp] theorem State.setFl_cycle (v : FlagBits) : (s.setFl v).cycle = s.cycle := rfl
@[simp] theorem State.setFl_x (v : FlagBits) (q : Reg) : (s.setFl v).x q = s.x q := rfl

@[simp] theorem State.setRun_mem (r : Run) : (s.setRun r).mem = s.mem := rfl
@[simp] theorem State.setRun_regs (r : Run) : (s.setRun r).regs = s.regs := rfl
@[simp] theorem State.setRun_pc (r : Run) : (s.setRun r).pc = s.pc := rfl
@[simp] theorem State.setRun_fl (r : Run) : (s.setRun r).fl = s.fl := rfl
@[simp] theorem State.setRun_run (r : Run) : (s.setRun r).run = r := rfl
@[simp] theorem State.setRun_out (r : Run) : (s.setRun r).out = s.out := rfl
@[simp] theorem State.setRun_inputs (r : Run) : (s.setRun r).inputs = s.inputs := rfl
@[simp] theorem State.setRun_cycle (r : Run) : (s.setRun r).cycle = s.cycle := rfl
@[simp] theorem State.setRun_x (r : Run) (q : Reg) : (s.setRun r).x q = s.x q := rfl

@[simp] theorem State.store_mem (a v : Byte) : (s.store a v).mem = s.mem.write a v := rfl
@[simp] theorem State.store_regs (a v : Byte) : (s.store a v).regs = s.regs := rfl
@[simp] theorem State.store_pc (a v : Byte) : (s.store a v).pc = s.pc := rfl
@[simp] theorem State.store_fl (a v : Byte) : (s.store a v).fl = s.fl := rfl
@[simp] theorem State.store_run (a v : Byte) : (s.store a v).run = s.run := rfl
@[simp] theorem State.store_out (a v : Byte) : (s.store a v).out = s.out := rfl
@[simp] theorem State.store_inputs (a v : Byte) : (s.store a v).inputs = s.inputs := rfl
@[simp] theorem State.store_cycle (a v : Byte) : (s.store a v).cycle = s.cycle := rfl
@[simp] theorem State.store_x (a v : Byte) (q : Reg) : (s.store a v).x q = s.x q := rfl

@[simp] theorem State.emit_mem (v : Byte) : (s.emit v).mem = s.mem := rfl
@[simp] theorem State.emit_regs (v : Byte) : (s.emit v).regs = s.regs := rfl
@[simp] theorem State.emit_pc (v : Byte) : (s.emit v).pc = s.pc := rfl
@[simp] theorem State.emit_fl (v : Byte) : (s.emit v).fl = s.fl := rfl
@[simp] theorem State.emit_run (v : Byte) : (s.emit v).run = s.run := rfl
@[simp] theorem State.emit_out (v : Byte) : (s.emit v).out = s.out ++ [v] := rfl
@[simp] theorem State.emit_inputs (v : Byte) : (s.emit v).inputs = s.inputs := rfl
@[simp] theorem State.emit_cycle (v : Byte) : (s.emit v).cycle = s.cycle := rfl
@[simp] theorem State.emit_x (v : Byte) (q : Reg) : (s.emit v).x q = s.x q := rfl

@[simp] theorem State.faulted_mem (k : FaultKind) (info : Option Nat) : (s.faulted k info).mem = s.mem := rfl
@[simp] theorem State.faulted_regs (k : FaultKind) (info : Option Nat) : (s.faulted k info).regs = s.regs := rfl
@[simp] theorem State.faulted_pc (k : FaultKind) (info : Option Nat) : (s.faulted k info).pc = s.pc := rfl
@[simp] theorem State.faulted_fl (k : FaultKind) (info : Option Nat) : (s.faulted k info).fl = s.fl := rfl
@[simp] theorem State.faulted_run (k : FaultKind) (info : Option Nat) : (s.faulted k info).run = .faulted { kind := k, pc := s.pc, opcode := s.mem.read s.pc, info := info } := rfl
@[simp] theorem State.faulted_out (k : FaultKind) (info : Option Nat) : (s.faulted k info).out = s.out := rfl
@[simp] theorem State.faulted_inputs (k : FaultKind) (info : Option Nat) : (s.faulted k info).inputs = s.inputs := rfl
@[simp] theorem State.faulted_cycle (k : FaultKind) (info : Option Nat) : (s.faulted k info).cycle = s.cycle := rfl
@[simp] theorem State.faulted_x (k : FaultKind) (info : Option Nat) (q : Reg) : (s.faulted k info).x q = s.x q := rfl

end Sys2Proof.Machine
end

