-- ==== Sys2Proof/Laws/Operands.lean ====
section
/-! SUPPORT. What the operand forms and the range checks of Machine/Ops.lean and Machine/Operands.lean answer: one lemma
for each way they can go, and one inversion lemma each. -/

namespace Sys2Proof

@[simp] theorem Reg.ofByte?_byte (r : Reg) : Reg.ofByte? r.byte = some r := by cases r <;> rfl

theorem Reg.byte_lt (r : Reg) : r.byte.toNat < 8 := by cases r <;> decide

theorem Reg.byte_injective {r q : Reg} (h : r.byte = q.byte) : r = q :=
  Option.some.inj ((Reg.ofByte?_byte r).symm.trans ((congrArg Reg.ofByte? h).trans (Reg.ofByte?_byte q)))

theorem Reg.ofByte?_of_ge {b : Byte} (h : 8 ≤ b.toNat) : Reg.ofByte? b = none := by
  unfold Reg.ofByte?
  split <;> first | omega | rfl

/-- A byte below 8 names a register, and is that register's byte. -/
theorem Reg.exists_byte {b : Byte} (h : b.toNat < 8) : ∃ r : Reg, b = r.byte := by
  have hb : b = BitVec.ofNat 8 b.toNat := by simp
  rw [hb]
  generalize b.toNat = n at h
  interval_cases n
  exacts [⟨.r0, rfl⟩, ⟨.r1, rfl⟩, ⟨.r2, rfl⟩, ⟨.r3, rfl⟩, ⟨.r4, rfl⟩, ⟨.r5, rfl⟩, ⟨.r6, rfl⟩, ⟨.r7, rfl⟩]

theorem Reg.isRegByte_byte (r : Reg) : isRegByte r.byte = true := by cases r <;> rfl

end Sys2Proof

namespace Sys2Proof.Machine

/-- A register operand that is in range. -/
@[simp] theorem withReg_byte (a : Reg) (s : State) (k : Reg → Result) : withReg a.byte s k = k a := by
  simp [withReg]

/-- A register operand out of range. -/
theorem withReg_of_ge {ra : Byte} (h : 8 ≤ ra.toNat) (s : State) (k : Reg → Result) :
    withReg ra s k = .next (s.faulted .registerOutOfRange (some ra.toNat)) := by
  simp [withReg, Reg.ofByte?_of_ge h, raiseRegisterOutOfRange, raise]

/-- Everything withReg can do. -/
theorem withReg_cases (ra : Byte) (s : State) (k : Reg → Result) :
    (∃ a : Reg, ra = a.byte ∧ withReg ra s k = k a) ∨
    (8 ≤ ra.toNat ∧ withReg ra s k = .next (s.faulted .registerOutOfRange (some ra.toNat))) := by
  by_cases h : ra.toNat < 8
  · obtain ⟨a, rfl⟩ := Reg.exists_byte h
    exact .inl ⟨a, rfl, withReg_byte a s k⟩
  · exact .inr ⟨by omega, withReg_of_ge (by omega) s k⟩

@[simp] theorem withRegs_byte (a b : Reg) (s : State) (k : Reg → Reg → Result) :
    withRegs a.byte b.byte s k = k a b := by simp [withRegs]

theorem withRegs_of_first_ge {ra : Byte} (rb : Byte) (h : 8 ≤ ra.toNat) (s : State) (k : Reg → Reg → Result) :
    withRegs ra rb s k = .next (s.faulted .registerOutOfRange (some ra.toNat)) := withReg_of_ge h s _

theorem withRegs_of_second_ge {ra rb : Byte} (ha : ra.toNat < 8) (h : 8 ≤ rb.toNat) (s : State)
    (k : Reg → Reg → Result) : withRegs ra rb s k = .next (s.faulted .registerOutOfRange (some rb.toNat)) := by
  obtain ⟨a, rfl⟩ := Reg.exists_byte ha
  simp [withRegs, withReg_of_ge h]

/-- Everything withRegs can do. -/
theorem withRegs_cases (ra rb : Byte) (s : State) (k : Reg → Reg → Result) :
    (∃ a b : Reg, ra = a.byte ∧ rb = b.byte ∧ withRegs ra rb s k = k a b) ∨
    (∃ v : Byte, 8 ≤ v.toNat ∧ (v = ra ∨ v = rb) ∧
      withRegs ra rb s k = .next (s.faulted .registerOutOfRange (some v.toNat))) := by
  obtain ⟨a, rfl, ha⟩ | ⟨h, e⟩ := withReg_cases ra s fun a => withReg rb s fun b => k a b
  · obtain ⟨b, rfl, hb⟩ | ⟨h, e⟩ := withReg_cases rb s fun b => k a b
    · exact .inl ⟨a, b, rfl, rfl, ha.trans hb⟩
    · exact .inr ⟨rb, h, .inr rfl, ha.trans e⟩
  · exact .inr ⟨ra, h, .inl rfl, e⟩

/-- The next instruction's address exists. -/
theorem withNextPc_of_lt {n : Nat} {s : State} (h : s.pc.toNat + 1 + n < 256) (k : Byte → Result) :
    withNextPc n s k = k (s.pc + BitVec.ofNat 8 (1 + n)) := if_pos h

/-- It would leave 0..255. -/
theorem withNextPc_of_ge {n : Nat} {s : State} (h : 256 ≤ s.pc.toNat + 1 + n) (k : Byte → Result) :
    withNextPc n s k = .next (s.faulted .addressOutOfRange (some 256)) := if_neg (Nat.not_lt.mpr h)

theorem sequential_of_lt {n : Nat} {s : State} (h : s.pc.toNat + 1 + n < 256) (effect : State → State) :
    sequential n s effect = .next ((effect s).setPc (s.pc + BitVec.ofNat 8 (1 + n))) := withNextPc_of_lt h _

theorem sequential_of_ge {n : Nat} {s : State} (h : 256 ≤ s.pc.toNat + 1 + n) (effect : State → State) :
    sequential n s effect = .next (s.faulted .addressOutOfRange (some 256)) := withNextPc_of_ge h _

/-- Everything sequential can do. -/
theorem sequential_cases (n : Nat) (s : State) (effect : State → State) :
    (s.pc.toNat + 1 + n < 256 ∧
      sequential n s effect = .next ((effect s).setPc (s.pc + BitVec.ofNat 8 (1 + n)))) ∨
    (256 ≤ s.pc.toNat + 1 + n ∧ sequential n s effect = .next (s.faulted .addressOutOfRange (some 256))) := by
  by_cases h : s.pc.toNat + 1 + n < 256
  · exact .inl ⟨h, sequential_of_lt h effect⟩
  · exact .inr ⟨by omega, sequential_of_ge (by omega) effect⟩

/-- Everything withStackRoom can do. -/
theorem withStackRoom_cases (s : State) (k : Result) :
    (s.x .sp = 0 ∧ withStackRoom s k = .next (s.faulted .stackOverflow none)) ∨
    (s.x .sp ≠ 0 ∧ withStackRoom s k = k) := by
  by_cases h : s.x .sp = 0
  · exact .inl ⟨h, if_pos h⟩
  · exact .inr ⟨h, if_neg h⟩

end Sys2Proof.Machine
end

