-- ==== Sys2Proof/Laws/Exec.lean ====
section
/-! SUPPORT. Everything an instruction can do, said once: exec's next state is a fault's, or the one its rule gives. -/

namespace Sys2Proof.Machine

/-- The next states of exec, by instruction. Every meaning answers one of these. -/
inductive ExecNext (i : Instr) (s t : State) : Prop
  | fault (k : FaultKind) (info : Option Nat) (ht : t = s.faulted k info)
  | nop (hi : i = .nop) (hp : s.pc.toNat + 1 < 256) (ht : t = s.setPc (s.pc + 1))
  | hlt (hi : i = .hlt) (ht : t = s.setRun .halted)
  | ret (hi : i = .ret) (ht : t = popPc s)
  | iret (hi : i = .iret) (ht : t = returnFromInterrupt s)
  | push (a : Reg) (hi : i = .push a.byte) (hp : s.pc.toNat + 2 < 256) (h0 : s.x .sp ≠ 0)
      (ht : t = (pushWith s fun s => s.x a).setPc (s.pc + 2))
  | pop (a : Reg) (hi : i = .pop a.byte) (hp : s.pc.toNat + 2 < 256)
      (ht : t = (dropTop (s.setX a (stackTop s))).setPc (s.pc + 2))
  | prn (a : Reg) (hi : i = .prn a.byte) (hp : s.pc.toNat + 2 < 256) (ht : t = (s.emit (s.x a)).setPc (s.pc + 2))
  | call (a : Reg) (hi : i = .call a.byte) (hp : s.pc.toNat + 2 < 256) (h0 : s.x .sp ≠ 0)
      (ht : t = (pushByte (s.pc + 2) s).setPc ((pushByte (s.pc + 2) s).x a))
  | jump (a : Reg) (hi : i = .jmp a.byte ∨ i = .jeq a.byte ∨ i = .jne a.byte ∨ i = .jlt a.byte) (target : Byte)
      (hq : target = s.x a ∨ target = s.pc + 2) (ht : t = s.setPc target)
  | ldi (a : Reg) (v : Byte) (hi : i = .ldi a.byte v) (hp : s.pc.toNat + 3 < 256)
      (ht : t = (s.setX a v).setPc (s.pc + 3))
  | st (a b : Reg) (hi : i = .st a.byte b.byte) (hp : s.pc.toNat + 3 < 256)
      (ht : t = (s.store (s.x a) (s.x b)).setPc (s.pc + 3))
  | add (a b : Reg) (hi : i = .add a.byte b.byte) (hp : s.pc.toNat + 3 < 256)
      (ht : t = (s.setX a (aluAdd (s.x a) (s.x b))).setPc (s.pc + 3))
  | mul (a b : Reg) (hi : i = .mul a.byte b.byte) (hp : s.pc.toNat + 3 < 256)
      (ht : t = (s.setX a (aluMultiply (s.x a) (s.x b))).setPc (s.pc + 3))
  | cmp (a b : Reg) (hi : i = .cmp a.byte b.byte) (hp : s.pc.toNat + 3 < 256)
      (ht : t = (s.setFl (compareFlags (s.x a) (s.x b))).setPc (s.pc + 3))

/-- What a jump answers for a register in range, where its fall-through is an address. -/
theorem jumpWhen_byte (taken : Bool) (a : Reg) {s : State} (hp : s.pc.toNat ≤ 253) :
    jumpWhen taken a.byte s = .next (s.setPc (if taken then s.x a else s.pc + 2)) := by
  unfold jumpWhen
  rw [withReg_byte]
  cases taken
  · simpa using sequential_of_lt (n := 1) (by omega) id
  · rfl

/-- Everything jumpWhen can do. -/
theorem jumpWhen_cases {taken : Bool} {ra : Byte} {s t : State} (h : jumpWhen taken ra s = .next t) :
    (∃ a target, ra = Reg.byte a ∧ (target = s.x a ∨ target = s.pc + 2) ∧ t = s.setPc target) ∨
    ∃ k info, t = s.faulted k info := by
  unfold jumpWhen at h
  obtain ⟨a, rfl, e⟩ | ⟨_, e⟩ :=
    withReg_cases ra s fun a => if taken then .next (s.setPc (s.x a)) else sequential 1 s id
  · rw [e] at h
    cases taken
    · simp only [Bool.false_eq_true, if_false] at h
      obtain ⟨_, e⟩ | ⟨_, e⟩ := sequential_cases 1 s id <;> rw [e] at h <;> cases h
      · exact .inl ⟨a, _, rfl, .inr rfl, rfl⟩
      · exact .inr ⟨_, _, rfl⟩
    · cases h
      exact .inl ⟨a, _, rfl, .inl rfl, rfl⟩
  · rw [e] at h
    cases h
    exact .inr ⟨_, _, rfl⟩

/-- The shape of a meaning with one register operand and a sequential advance. -/
theorem withReg_sequential_cases {ra : Byte} {n : Nat} {s t : State} {effect : Reg → State → State}
    (h : (withReg ra s fun a => sequential n s (effect a)) = .next t) :
    (∃ a, ra = Reg.byte a ∧ s.pc.toNat + 1 + n < 256 ∧ t = (effect a s).setPc (s.pc + BitVec.ofNat 8 (1 + n))) ∨
    ∃ k info, t = s.faulted k info := by
  obtain ⟨a, rfl, e⟩ | ⟨_, e⟩ := withReg_cases ra s fun a => sequential n s (effect a) <;> rw [e] at h
  · obtain ⟨hp, e⟩ | ⟨_, e⟩ := sequential_cases n s (effect a) <;> rw [e] at h <;> cases h
    · exact .inl ⟨a, rfl, hp, rfl⟩
    · exact .inr ⟨_, _, rfl⟩
  · cases h
    exact .inr ⟨_, _, rfl⟩

/-- The shape of a meaning with two register operands and a sequential advance. -/
theorem withRegs_sequential_cases {ra rb : Byte} {n : Nat} {s t : State} {effect : Reg → Reg → State → State}
    (h : (withRegs ra rb s fun a b => sequential n s (effect a b)) = .next t) :
    (∃ a b, ra = Reg.byte a ∧ rb = Reg.byte b ∧ s.pc.toNat + 1 + n < 256 ∧
      t = (effect a b s).setPc (s.pc + BitVec.ofNat 8 (1 + n))) ∨
    ∃ k info, t = s.faulted k info := by
  obtain ⟨a, b, rfl, rfl, e⟩ | ⟨_, _, _, e⟩ := withRegs_cases ra rb s fun a b => sequential n s (effect a b) <;>
    rw [e] at h
  · obtain ⟨hp, e⟩ | ⟨_, e⟩ := sequential_cases n s (effect a b) <;> rw [e] at h <;> cases h
    · exact .inl ⟨a, b, rfl, rfl, hp, rfl⟩
    · exact .inr ⟨_, _, rfl⟩
  · cases h
    exact .inr ⟨_, _, rfl⟩

/-- The shape of PUSH and CALL: one register operand, the next address, room on the stack. -/
theorem withReg_push_cases {ra : Byte} {s t : State} {after : Reg → Byte → State}
    (h : (withReg ra s fun a => withNextPc 1 s fun n => withStackRoom s (.next (after a n))) = .next t) :
    (∃ a, ra = Reg.byte a ∧ s.pc.toNat + 2 < 256 ∧ s.x .sp ≠ 0 ∧ t = after a (s.pc + 2)) ∨
    ∃ k info, t = s.faulted k info := by
  obtain ⟨a, rfl, e⟩ | ⟨_, e⟩ :=
    withReg_cases ra s fun a => withNextPc 1 s fun n => withStackRoom s (.next (after a n)) <;> rw [e] at h
  · by_cases hp : s.pc.toNat + 1 + 1 < 256
    · rw [withNextPc_of_lt hp] at h
      obtain ⟨_, e⟩ | ⟨h0, e⟩ := withStackRoom_cases s (.next (after a (s.pc + BitVec.ofNat 8 (1 + 1)))) <;>
        rw [e] at h <;> cases h
      · exact .inr ⟨_, _, rfl⟩
      · exact .inl ⟨a, rfl, hp, h0, rfl⟩
    · rw [withNextPc_of_ge (by omega)] at h
      cases h
      exact .inr ⟨_, _, rfl⟩
  · cases h
    exact .inr ⟨_, _, rfl⟩

/-- If exec answers next t, then t is one of the states of ExecNext. -/
theorem exec_cases {i : Instr} {s t : State} (h : exec i s = .next t) : ExecNext i s t := by
  cases i with
  | nop =>
    obtain ⟨hp, e⟩ | ⟨_, e⟩ := sequential_cases 0 s id <;> rw [exec, execNop, e] at h <;> cases h
    · exact .nop rfl hp rfl
    · exact .fault _ _ rfl
  | hlt => cases h; exact .hlt rfl rfl
  | ret => cases h; exact .ret rfl rfl
  | iret => cases h; exact .iret rfl rfl
  | push ra =>
    obtain ⟨a, rfl, hp, h0, rfl⟩ | ⟨_, _, rfl⟩ := withReg_push_cases h
    · exact .push a rfl hp h0 rfl
    · exact .fault _ _ rfl
  | pop ra =>
    obtain ⟨a, rfl, hp, rfl⟩ | ⟨_, _, rfl⟩ := withReg_sequential_cases h
    · exact .pop a rfl hp rfl
    · exact .fault _ _ rfl
  | prn ra =>
    obtain ⟨a, rfl, hp, rfl⟩ | ⟨_, _, rfl⟩ := withReg_sequential_cases h
    · exact .prn a rfl hp rfl
    · exact .fault _ _ rfl
  | call ra =>
    obtain ⟨a, rfl, hp, h0, rfl⟩ | ⟨_, _, rfl⟩ := withReg_push_cases h
    · exact .call a rfl hp h0 rfl
    · exact .fault _ _ rfl
  | jmp ra =>
    obtain ⟨a, p, rfl, hq, rfl⟩ | ⟨_, _, rfl⟩ := jumpWhen_cases h
    · exact .jump a (.inl rfl) p hq rfl
    · exact .fault _ _ rfl
  | jeq ra =>
    obtain ⟨a, p, rfl, hq, rfl⟩ | ⟨_, _, rfl⟩ := jumpWhen_cases h
    · exact .jump a (.inr (.inl rfl)) p hq rfl
    · exact .fault _ _ rfl
  | jne ra =>
    obtain ⟨a, p, rfl, hq, rfl⟩ | ⟨_, _, rfl⟩ := jumpWhen_cases h
    · exact .jump a (.inr (.inr (.inl rfl))) p hq rfl
    · exact .fault _ _ rfl
  | jlt ra =>
    obtain ⟨a, p, rfl, hq, rfl⟩ | ⟨_, _, rfl⟩ := jumpWhen_cases h
    · exact .jump a (.inr (.inr (.inr rfl))) p hq rfl
    · exact .fault _ _ rfl
  | ldi ra v =>
    obtain ⟨a, rfl, hp, rfl⟩ | ⟨_, _, rfl⟩ := withReg_sequential_cases h
    · exact .ldi a v rfl hp rfl
    · exact .fault _ _ rfl
  | st ra rb =>
    obtain ⟨a, b, rfl, rfl, hp, rfl⟩ | ⟨_, _, rfl⟩ := withRegs_sequential_cases h
    · exact .st a b rfl hp rfl
    · exact .fault _ _ rfl
  | add ra rb =>
    obtain ⟨a, b, rfl, rfl, hp, rfl⟩ | ⟨_, _, rfl⟩ := withRegs_sequential_cases h
    · exact .add a b rfl hp rfl
    · exact .fault _ _ rfl
  | mul ra rb =>
    obtain ⟨a, b, rfl, rfl, hp, rfl⟩ | ⟨_, _, rfl⟩ := withRegs_sequential_cases h
    · exact .mul a b rfl hp rfl
    · exact .fault _ _ rfl
  | cmp ra rb =>
    obtain ⟨a, b, rfl, rfl, hp, rfl⟩ | ⟨_, _, rfl⟩ := withRegs_sequential_cases h
    · exact .cmp a b rfl hp rfl
    · exact .fault _ _ rfl

end Sys2Proof.Machine
end

