-- ==== Sys2Proof/Laws/Memory.lean ====
section
/-! SUPPORT. The laws of MEM: reading after writing, and the canonical form, which every memory operation keeps. -/

namespace Sys2Proof.Machine

theorem Memory.wfFrom_mono {m : Memory} {lo hi : Nat} (h : lo ≤ hi) (w : Memory.wfFrom hi m = true) :
    Memory.wfFrom lo m = true := by
  cases m with
  | nil => rfl
  | cons e m =>
    simp only [Memory.wfFrom, Bool.and_eq_true, decide_eq_true_eq] at w ⊢
    exact ⟨⟨⟨le_trans h w.1.1.1, w.1.1.2⟩, w.1.2⟩, w.2⟩

/-- Below the first address it can list, a canonical memory reads as unlisted. -/
theorem Memory.read_below {m : Memory} {lo : Nat} (w : Memory.wfFrom lo m = true) {a : Byte} (h : a.toNat < lo) :
    m.read a = Memory.unlisted := by
  induction m generalizing lo with
  | nil => rfl
  | cons e m ih =>
    simp only [Memory.wfFrom, Bool.and_eq_true, decide_eq_true_eq] at w
    have hk : e.1 ≠ a.toNat := by omega
    simp only [Memory.read, hk, if_false]
    exact ih w.2 (by omega)

/-- A write leaves every other address alone. -/
theorem Memory.read_write_ne (m : Memory) {a b : Byte} (v : Byte) (h : b ≠ a) : (m.write a v).read b = m.read b := by
  have hab : a.toNat ≠ b.toNat := fun e => h (BitVec.eq_of_toNat_eq e.symm)
  induction m with
  | nil => by_cases hv : v = Memory.unlisted <;> simp [Memory.write, Memory.read, hv, hab]
  | cons e m ih =>
    obtain ⟨k, w⟩ := e
    simp only [Memory.write]
    by_cases h1 : a.toNat < k
    · by_cases hv : v = Memory.unlisted <;> simp [h1, hv, Memory.read, hab]
    · by_cases h2 : a.toNat = k
      · subst h2
        by_cases hv : v = Memory.unlisted <;> simp [hv, Memory.read, hab]
      · simp [h1, h2, Memory.read, ih]

theorem Memory.read_write_same_from {m : Memory} {lo : Nat} (w : Memory.wfFrom lo m = true) (a v : Byte) :
    (m.write a v).read a = v := by
  induction m generalizing lo with
  | nil => by_cases hv : v = Memory.unlisted <;> simp [Memory.write, Memory.read, hv]
  | cons e m ih =>
    obtain ⟨k, x⟩ := e
    simp only [Memory.wfFrom, Bool.and_eq_true, decide_eq_true_eq] at w
    simp only [Memory.write]
    by_cases h1 : a.toNat < k
    · by_cases hv : v = Memory.unlisted
      · have hk : k ≠ a.toNat := by omega
        simpa [h1, hv, Memory.read, hk] using Memory.read_below w.2 (by omega)
      · simp [h1, hv, Memory.read]
    · by_cases h2 : a.toNat = k
      · by_cases hv : v = Memory.unlisted
        · simpa [h2, hv] using Memory.read_below w.2 (by omega)
        · simp [h2, hv, Memory.read]
      · have hk : k ≠ a.toNat := fun e => h2 e.symm
        simpa [h1, h2, Memory.read, hk] using ih w.2

/-- The byte written is the byte read back. -/
theorem Memory.read_write_same {m : Memory} (w : m.wf = true) (a v : Byte) : (m.write a v).read a = v :=
  Memory.read_write_same_from w a v

theorem Memory.write_wfFrom {m : Memory} {lo : Nat} (w : Memory.wfFrom lo m = true) (a v : Byte) (h : lo ≤ a.toNat) :
    Memory.wfFrom lo (m.write a v) = true := by
  have ha : a.toNat < Config.memSize := a.isLt
  induction m generalizing lo with
  | nil => by_cases hv : v = Memory.unlisted <;> simp [Memory.write, Memory.wfFrom, hv, h, ha]
  | cons e m ih =>
    obtain ⟨k, x⟩ := e
    have w' := w
    simp only [Memory.wfFrom, Bool.and_eq_true, decide_eq_true_eq] at w'
    obtain ⟨⟨⟨hk, hk'⟩, hx⟩, hm⟩ := w'
    simp only [Memory.write]
    by_cases h1 : a.toNat < k
    · by_cases hv : v = Memory.unlisted
      · simpa [h1, hv] using w
      · have h1' : a.toNat + 1 ≤ k := h1
        simp [h1, hv, Memory.wfFrom, h, ha, hk', hx, hm, h1']
    · by_cases h2 : a.toNat = k
      · by_cases hv : v = Memory.unlisted
        · simpa [h2, hv] using Memory.wfFrom_mono (by omega) hm
        · simp [h2, hv, Memory.wfFrom, hk, hk', hm]
      · have := ih hm (by omega)
        simp [h1, h2, Memory.wfFrom, hk, hk', hx, this]

/-- A write keeps the canonical form. -/
@[simp] theorem Memory.write_wf {m : Memory} (w : m.wf = true) (a v : Byte) : (m.write a v).wf = true :=
  Memory.write_wfFrom w a v (Nat.zero_le _)

theorem Memory.writeFrom_wf {m : Memory} (w : m.wf = true) (a : Nat) (bs : List Byte) :
    (m.writeFrom a bs).wf = true := by
  induction bs generalizing m a with
  | nil => exact w
  | cons b bs ih => exact ih (Memory.write_wf w _ _) _

theorem State.reset_mem_wf : State.reset.mem.wf = true := rfl

end Sys2Proof.Machine
end

