-- ==== Sys2Proof/Laws/Ops.lean ====
section
/-! SUPPORT. What the stack primitives, the sampling, interrupt entry and the return do, each said once. -/

namespace Sys2Proof.Machine

/-! ## Stack primitives -/

theorem pushWith_mem (s : State) (value : State → Byte) :
    (pushWith s value).mem = s.mem.write (pushAddress s) (value (s.setX .sp (pushAddress s))) := rfl

theorem pushWith_regs (s : State) (value : State → Byte) :
    (pushWith s value).regs = s.regs.set .sp (pushAddress s) := rfl

theorem pushByte_mem (v : Byte) (s : State) : (pushByte v s).mem = s.mem.write (pushAddress s) v := rfl

theorem pushByte_regs (v : Byte) (s : State) : (pushByte v s).regs = s.regs.set .sp (pushAddress s) := rfl

theorem pushAddress_toNat {s : State} (h : s.x .sp ≠ 0) : (pushAddress s).toNat = (s.x .sp).toNat - 1 := by
  have : (s.x .sp).toNat ≠ 0 := fun e => h (BitVec.eq_of_toNat_eq e)
  unfold pushAddress
  bv_omega

/-- The clamp: SP after a pop is one more, and never above 0xFF. -/
theorem afterPop_toNat (sp : Byte) : (afterPop sp).toNat = min (sp.toNat + 1) 255 := by
  unfold afterPop Config.spClamp
  split
  · next h => subst h; rfl
  · next h =>
    have : sp.toNat ≠ 255 := fun e => h (BitVec.eq_of_toNat_eq e)
    bv_omega

/-- SP after k pops, none of which writes SP. -/
theorem afterPop_iterate_toNat (sp : Byte) (k : Nat) : (afterPop^[k] sp).toNat = min (sp.toNat + k) 255 := by
  induction k generalizing sp with
  | zero => have := sp.isLt; simp; omega
  | succ k ih => rw [Function.iterate_succ_apply, ih, afterPop_toNat]; omega

/-! ## The inputs -/

theorem sample_regs (s : State) :
    (sample s).regs = s.regs.set .is (s.x .is ||| s.nextInput.irq ||| timerBit s.nextInput.tick) := rfl

@[simp] theorem sample_mem (s : State) : (sample s).mem = s.mem := rfl
@[simp] theorem sample_pc (s : State) : (sample s).pc = s.pc := rfl
@[simp] theorem sample_fl (s : State) : (sample s).fl = s.fl := rfl
@[simp] theorem sample_run (s : State) : (sample s).run = s.run := rfl
@[simp] theorem sample_out (s : State) : (sample s).out = s.out := rfl
@[simp] theorem sample_x_ne (s : State) {r : Reg} (h : r ≠ .is) : (sample s).x r = s.x r := Regs.get_set_ne _ _ h

/-! ## Taking an interrupt -/

/-- MEM after the nine pushes of interrupt entry on line i (60_exceptions.md R176). -/
def frameWritten (i : Line) (s : State) : Memory :=
  let sp := s.x .sp
  (((((((((s.mem.write (sp - 1) s.pc).write (sp - 1 - 1) (flagByte s.fl)).write (sp - 1 - 1 - 1) (s.x .r0)).write
    (sp - 1 - 1 - 1 - 1) (s.x .r1)).write (sp - 1 - 1 - 1 - 1 - 1) (s.x .r2)).write
    (sp - 1 - 1 - 1 - 1 - 1 - 1) (s.x .r3)).write (sp - 1 - 1 - 1 - 1 - 1 - 1 - 1) (s.x .r4)).write
    (sp - 1 - 1 - 1 - 1 - 1 - 1 - 1 - 1) (s.x .r5)).write (sp - 1 - 1 - 1 - 1 - 1 - 1 - 1 - 1 - 1)
    (s.x .r6 &&& ~~~(1#8 <<< i.val)))

theorem enterInterrupt_of_lt {s : State} (h : (s.x .sp).toNat < 9) (i : Line) :
    enterInterrupt i s = s.faulted .stackOverflow none := if_pos h

/-- Interrupt entry where the stack has room, written out. -/
theorem enterInterrupt_of_ge {s : State} (h : 9 ≤ (s.x .sp).toNat) (i : Line) :
    enterInterrupt i s =
      { s with
        mem := frameWritten i s
        regs := { x0 := 0, x1 := 0, x2 := 0, x3 := 0, x4 := 0, x5 := 0, x6 := 0,
                  x7 := s.x .sp - 1 - 1 - 1 - 1 - 1 - 1 - 1 - 1 - 1 }
        fl := 0
        pc := (frameWritten i s).read (vectorAddress i) } := (if_neg (Nat.not_lt.mpr h)).trans rfl

theorem frameWritten_wf {s : State} (h : s.mem.wf = true) (i : Line) : (frameWritten i s).wf = true := by
  unfold frameWritten
  iterate 9 apply Memory.write_wf
  exact h

/-- Everything phase A2 can do. -/
theorem arbitrate_cases (s : State) :
    (lowestEligible (s.x .im) (s.x .is) = none ∧ arbitrate s = s) ∨
    ∃ i, lowestEligible (s.x .im) (s.x .is) = some i ∧
      (((s.x .sp).toNat < 9 ∧ arbitrate s = s.faulted .stackOverflow none) ∨
       (9 ≤ (s.x .sp).toNat ∧ arbitrate s = enterInterrupt i s)) := by
  cases e : lowestEligible (s.x .im) (s.x .is) with
  | none => exact .inl ⟨rfl, by simp [arbitrate, e]⟩
  | some i =>
    refine .inr ⟨i, rfl, ?_⟩
    have ha : arbitrate s = enterInterrupt i s := by simp [arbitrate, e]
    by_cases h : (s.x .sp).toNat < 9
    · exact .inl ⟨h, ha.trans (enterInterrupt_of_lt h i)⟩
    · exact .inr ⟨by omega, ha⟩

/-! ## Returning from an interrupt -/

/-- The return from an interrupt, written out: the k-th pop reads at SP after k pops. -/
theorem returnFromInterrupt_eq (s : State) :
    returnFromInterrupt s =
      { s with
        regs := { x0 := s.mem.read (afterPop^[6] (s.x .sp)), x1 := s.mem.read (afterPop^[5] (s.x .sp)),
                  x2 := s.mem.read (afterPop^[4] (s.x .sp)), x3 := s.mem.read (afterPop^[3] (s.x .sp)),
                  x4 := s.mem.read (afterPop^[2] (s.x .sp)), x5 := s.mem.read (afterPop^[1] (s.x .sp)),
                  x6 := s.mem.read (s.x .sp), x7 := afterPop^[9] (s.x .sp) }
        fl := (s.mem.read (afterPop^[7] (s.x .sp))).setWidth 3
        pc := s.mem.read (afterPop^[8] (s.x .sp)) } := by
  simp only [returnFromInterrupt, savedRegs, List.reverse_cons, List.reverse_nil, List.nil_append, List.cons_append,
    List.foldl_cons, List.foldl_nil, popInto, popFlags, popPc, pop, dropTop, stackTop, State.setX, State.setFl,
    State.setPc, State.x, Regs.set, Regs.get, Function.iterate_succ_apply', Function.iterate_zero_apply]

/-- The address the k-th pop reads, counted from 0: SP + k, or 0xFF once SP has reached it. -/
def popAddress (s : State) (k : Nat) : Byte := BitVec.ofNat 8 (min ((s.x .sp).toNat + k) 255)

theorem afterPop_iterate (s : State) (k : Nat) : afterPop^[k] (s.x .sp) = popAddress s k := by
  apply BitVec.eq_of_toNat_eq
  rw [afterPop_iterate_toNat, popAddress, BitVec.toNat_ofNat]
  omega

/-- The return from an interrupt, with the nine addresses computed. -/
theorem returnFromInterrupt_closed (s : State) :
    returnFromInterrupt s =
      { s with
        regs := { x0 := s.mem.read (popAddress s 6), x1 := s.mem.read (popAddress s 5),
                  x2 := s.mem.read (popAddress s 4), x3 := s.mem.read (popAddress s 3),
                  x4 := s.mem.read (popAddress s 2), x5 := s.mem.read (popAddress s 1),
                  x6 := s.mem.read (popAddress s 0), x7 := popAddress s 9 }
        fl := (s.mem.read (popAddress s 7)).setWidth 3
        pc := s.mem.read (popAddress s 8) } := by
  rw [returnFromInterrupt_eq, ← afterPop_iterate s 0]
  simp only [afterPop_iterate, Function.iterate_zero_apply]

@[simp] theorem returnFromInterrupt_mem (s : State) : (returnFromInterrupt s).mem = s.mem := by
  rw [returnFromInterrupt_closed]
@[simp] theorem returnFromInterrupt_run (s : State) : (returnFromInterrupt s).run = s.run := by
  rw [returnFromInterrupt_closed]
@[simp] theorem returnFromInterrupt_out (s : State) : (returnFromInterrupt s).out = s.out := by
  rw [returnFromInterrupt_closed]
@[simp] theorem returnFromInterrupt_inputs (s : State) : (returnFromInterrupt s).inputs = s.inputs := by
  rw [returnFromInterrupt_closed]
@[simp] theorem returnFromInterrupt_cycle (s : State) : (returnFromInterrupt s).cycle = s.cycle := by
  rw [returnFromInterrupt_closed]

/-! ## Fetch -/

theorem fetch_of_le {s : State} (h : s.pc.toNat ≤ 253) :
    fetch s = some (s.mem.read s.pc, s.mem.read (s.pc + 1), s.mem.read (s.pc + 2)) :=
  if_pos (by show s.pc.toNat + 3 ≤ 256; omega)

theorem fetch_of_gt {s : State} (h : 253 < s.pc.toNat) : fetch s = none :=
  if_neg (by show ¬ s.pc.toNat + 3 ≤ 256; omega)

end Sys2Proof.Machine
end

