-- ==== Sys2Proof/Laws/PerInstr.lean ====
section
/-! SUPPORT. One lemma per constructor of Instr for each family of LAWS.json.
OpcodeAndLength: the encoding begins with the byte that the table gives the instruction's row, is 1 + n bytes long, n the
row's operand count (30_encoding.md R50, R52), and the decoder finds the row by that byte. -/

namespace Sys2Proof.Laws.OpcodeAndLength

def Statement (i : Instr) : Prop :=
  (encode i).head? = some (opc i.mnemonic) ∧ (encode i).length = 1 + i.mnemonic.format.operandCount ∧
    lookupOpcode (opc i.mnemonic) = some i.mnemonic

theorem nop : Statement .nop := ⟨rfl, rfl, rfl⟩
theorem hlt : Statement .hlt := ⟨rfl, rfl, rfl⟩
theorem ret : Statement .ret := ⟨rfl, rfl, rfl⟩
theorem iret : Statement .iret := ⟨rfl, rfl, rfl⟩
theorem push (ra : Byte) : Statement (.push ra) := ⟨rfl, rfl, rfl⟩
theorem pop (ra : Byte) : Statement (.pop ra) := ⟨rfl, rfl, rfl⟩
theorem prn (ra : Byte) : Statement (.prn ra) := ⟨rfl, rfl, rfl⟩
theorem call (ra : Byte) : Statement (.call ra) := ⟨rfl, rfl, rfl⟩
theorem jmp (ra : Byte) : Statement (.jmp ra) := ⟨rfl, rfl, rfl⟩
theorem jeq (ra : Byte) : Statement (.jeq ra) := ⟨rfl, rfl, rfl⟩
theorem jne (ra : Byte) : Statement (.jne ra) := ⟨rfl, rfl, rfl⟩
theorem jlt (ra : Byte) : Statement (.jlt ra) := ⟨rfl, rfl, rfl⟩
theorem ldi (ra imm : Byte) : Statement (.ldi ra imm) := ⟨rfl, rfl, rfl⟩
theorem st (ra rb : Byte) : Statement (.st ra rb) := ⟨rfl, rfl, rfl⟩
theorem add (ra rb : Byte) : Statement (.add ra rb) := ⟨rfl, rfl, rfl⟩
theorem mul (ra rb : Byte) : Statement (.mul ra rb) := ⟨rfl, rfl, rfl⟩
theorem cmp (ra rb : Byte) : Statement (.cmp ra rb) := ⟨rfl, rfl, rfl⟩

end Sys2Proof.Laws.OpcodeAndLength
end

