-- ==== Sys2Proof/Laws/Step.lean ====
section
/-! SUPPORT. Everything a step can do, said once. -/

namespace Sys2Proof.Machine

/-- The next states of step: nothing on a stopped machine; the fault of phase A2; a fault of phase B before exec; exec of
the decoded instruction. -/
inductive StepNext (s t : State) : Prop
  | stopped (hs : s.run ≠ .running) (ht : t = s)
  | entryFault (hs : s.run = .running) (hu : (interruptPhase s).run ≠ .running) (ht : t = interruptPhase s)
  | fault (hs : s.run = .running) (hu : (interruptPhase s).run = .running) (k : FaultKind) (info : Option Nat)
      (ht : t = (interruptPhase s).faulted k info)
  | executed (hs : s.run = .running) (hu : (interruptPhase s).run = .running)
      (hp : (interruptPhase s).pc.toNat ≤ 253) (i : Instr)
      (hd : decode ((interruptPhase s).mem.read (interruptPhase s).pc)
        ((interruptPhase s).mem.read ((interruptPhase s).pc + 1))
        ((interruptPhase s).mem.read ((interruptPhase s).pc + 2)) = .ok i)
      (hi : exec i (interruptPhase s) = .next t)

theorem step_of_stopped {s : State} (h : s.run ≠ .running) : step s = .next s := by
  unfold step
  split
  · contradiction
  · rfl

theorem step_of_running {s : State} (h : s.run = .running) : step s = performCycle s := by simp [step, h]

/-- A fault of phase A2 ends the cycle. -/
theorem performCycle_of_entryFault {s : State} (h : (interruptPhase s).run ≠ .running) :
    performCycle s = .next (interruptPhase s) := by
  simp only [performCycle]

/-- Phase B runs where phase A2 has not stopped the machine. -/
theorem step_eq_executePhase {s : State} (h : s.run = .running) (h' : (interruptPhase s).run = .running) :
    step s = executePhase (interruptPhase s) := by
  simp [step, h, performCycle, h']

theorem executePhase_cases {u t : State} (h : executePhase u = .next t) :
    (∃ k info, t = u.faulted k info) ∨
    (u.pc.toNat ≤ 253 ∧ ∃ i, decode (u.mem.read u.pc) (u.mem.read (u.pc + 1)) (u.mem.read (u.pc + 2)) = .ok i ∧
      exec i u = .next t) := by
  by_cases hp : u.pc.toNat ≤ 253
  · simp only [executePhase, fetch_of_le hp] at h
    split at h
    · cases h; exact .inl ⟨_, _, rfl⟩
    · cases h; exact .inl ⟨_, _, rfl⟩
    · next i hd => exact .inr ⟨hp, i, hd, h⟩
  · rw [executePhase, fetch_of_gt (by omega)] at h
    cases h
    exact .inl ⟨_, _, rfl⟩

/-- If step answers next t, then t is one of the states of StepNext. -/
theorem step_cases {s t : State} (h : step s = .next t) : StepNext s t := by
  by_cases hs : s.run = .running
  · by_cases hu : (interruptPhase s).run = .running
    · rw [step_eq_executePhase hs hu] at h
      obtain ⟨k, info, rfl⟩ | ⟨hp, i, hd, hi⟩ := executePhase_cases h
      · exact .fault hs hu k info rfl
      · exact .executed hs hu hp i hd hi
    · rw [step_of_running hs] at h
      rw [performCycle_of_entryFault hu] at h
      cases h
      exact .entryFault hs hu rfl
  · rw [step_of_stopped hs] at h
    cases h
    exact .stopped hs rfl

end Sys2Proof.Machine
end

