-- ==== Sys2Proof/Tests/Slice0.lean ====
section
/-! SUPPORT. Tests of the model against the spec's own vectors (95_test_vectors.md V1 to V59), the WellFormed smoke
test, the decoding of every constructor, and a witness for the hypotheses of every statement. -/

namespace Sys2Proof.Tests

open Sys2Proof.Machine

/-! ## Helpers -/

/-- The next state an outcome holds. -/
def nextOf : Result → Option State
  | .next s => some s
  | _ => none

def idle : CycleInput := { tick := false, irq := 0 }

/-- The reset state with bytes at pc and idle inputs for the next two cycles. -/
def at_ (pc : Byte) (bytes : List Byte) : State :=
  { State.reset with pc := pc, mem := Memory.writeFrom [] pc.toNat bytes, inputs := [idle, idle] }

/-- One step, then a look at the state. -/
def after {α : Type} (s : State) (look : State → α) : Option α := (nextOf (step s)).map look

/-! ## WellFormed: an ill-formed instruction for each check -/

theorem test_wf_refuses :
    (Instr.push 8).wf = false ∧ (Instr.pop 8).wf = false ∧ (Instr.prn 8).wf = false ∧ (Instr.call 8).wf = false ∧
    (Instr.jmp 8).wf = false ∧ (Instr.jeq 255).wf = false ∧ (Instr.jne 8).wf = false ∧ (Instr.jlt 8).wf = false ∧
    (Instr.ldi 8 0).wf = false ∧
    (Instr.st 8 0).wf = false ∧ (Instr.st 0 8).wf = false ∧ (Instr.add 8 0).wf = false ∧ (Instr.add 0 8).wf = false ∧
    (Instr.mul 8 0).wf = false ∧ (Instr.mul 0 8).wf = false ∧ (Instr.cmp 8 0).wf = false ∧
    (Instr.cmp 0 8).wf = false := by decide

theorem test_wf_accepts : (Instr.ldi 7 255).wf = true ∧ (Instr.st 7 7).wf = true ∧ Instr.iret.wf = true := by decide

/-! ## Decoding: a word of each constructor, written out from 30_encoding.md R54 -/

theorem test_decode_format_z :
    decode 0b00000000 0xFF 0xFF = .ok .nop ∧ decode 0b00000001 0xFF 0xFF = .ok .hlt ∧
    decode 0b00010001 0xFF 0xFF = .ok .ret ∧ decode 0b00010011 0xFF 0xFF = .ok .iret := by decide

theorem test_decode_format_r :
    decode 0b01000101 1 0xFF = .ok (.push 1) ∧ decode 0b01000110 2 0xFF = .ok (.pop 2) ∧
    decode 0b01000111 3 0xFF = .ok (.prn 3) ∧ decode 0b01010000 4 0xFF = .ok (.call 4) ∧
    decode 0b01010100 5 0xFF = .ok (.jmp 5) ∧ decode 0b01010101 6 0xFF = .ok (.jeq 6) ∧
    decode 0b01010110 7 0xFF = .ok (.jne 7) ∧ decode 0b01011000 0 0xFF = .ok (.jlt 0) := by decide

theorem test_decode_three_bytes :
    decode 0b10000010 7 0xFF = .ok (.ldi 7 0xFF) ∧ decode 0b10000100 1 2 = .ok (.st 1 2) ∧
    decode 0b10100000 3 4 = .ok (.add 3 4) ∧ decode 0b10100010 5 6 = .ok (.mul 5 6) ∧
    decode 0b10100111 7 0 = .ok (.cmp 7 0) := by decide

/-- 0x83 and 0xA1 are no relatives of their neighbours (R55); opa is checked before opb (R125). -/
theorem test_decode_refuses :
    decode 0x83 0 1 = .error (.illegalInstruction 0x83) ∧ decode 0xA1 9 9 = .error (.illegalInstruction 0xA1) ∧
    decode 0xA0 8 9 = .error (.registerOutOfRange 8) ∧ decode 0xA0 7 9 = .error (.registerOutOfRange 9) ∧
    decode 0x55 8 0 = .error (.registerOutOfRange 8) ∧ decode 0x82 7 9 = .ok (.ldi 7 9) := by decide

theorem test_table_word : decodeTableWord 24 0x0100A0 = some (.add 0 1) ∧ decodeTableWord 8 0x45 = some (.push 0) := by
  decide

theorem test_withFetchWord :
    after (State.reset.withFetchWord 24 0x080082) (fun t => (t.x .r0, t.pc, t.run)) = some (8, 3, .running) := by decide

/-! ## Instructions -/

/-- V2: 255 + 1 = 0. -/
theorem test_add_wraps :
    after (({ at_ 0 [0xA0, 0, 1] with regs := { State.reset.regs with x0 := 255, x1 := 1 } }))
      (fun t => (t.x .r0, t.x .r1, t.pc)) = some (0, 1, 3) := by decide

/-- V4: no zero flag exists. -/
theorem test_add_keeps_flags :
    after { at_ 0 [0xA0, 0, 1] with fl := 0b100 } (fun t => (t.x .r0, t.fl)) = some (0, 0b100) := by decide

/-- V7: 200 * 2 = 144. -/
theorem test_mul_wraps :
    after { at_ 0 [0xA2, 2, 3] with regs := { State.reset.regs with x2 := 200, x3 := 2 } }
      (fun t => (t.x .r2, t.x .r3, t.pc)) = some (144, 2, 3) := by decide

/-- V6: R1 * R1 reads both operands before the write. -/
theorem test_mul_same_register :
    after { at_ 0 [0xA2, 1, 1] with regs := { State.reset.regs with x1 := 255 } } (fun t => t.x .r1) = some 1 := by
  decide

/-- V12: 128 > 127, unsigned. -/
theorem test_cmp_unsigned :
    after { at_ 0 [0xA7, 0, 1] with regs := { State.reset.regs with x0 := 128, x1 := 127 } } (fun t => t.fl)
      = some 0b010 := by decide

/-- V10, with an old E bit that must go. -/
theorem test_cmp_less :
    after { at_ 0 [0xA7, 0, 1] with regs := { State.reset.regs with x0 := 3, x1 := 5 }, fl := 0b001 }
      (fun t => (t.fl, t.x .r0, t.pc)) = some (0b100, 3, 3) := by decide

/-- V19. -/
theorem test_jmp :
    after { at_ 0x0A [0x54, 2] with regs := { State.reset.regs with x2 := 0x20 } } (fun t => t.pc) = some 0x20 := by
  decide

/-- V15 and V16. -/
theorem test_jeq :
    after { at_ 3 [0x55, 0] with regs := { State.reset.regs with x0 := 7 } } (fun t => t.pc) = some 5 ∧
    after { at_ 0x0A [0x55, 2] with regs := { State.reset.regs with x2 := 0x20 }, fl := 0b001 } (fun t => t.pc)
      = some 0x20 := by decide

/-- V14, V17 and V18b. -/
theorem test_jne :
    after { at_ 3 [0x56, 0] with regs := { State.reset.regs with x0 := 6 } } (fun t => t.pc) = some 6 ∧
    after { at_ 0x0A [0x56, 2] with regs := { State.reset.regs with x2 := 0x20 }, fl := 0b001 } (fun t => t.pc)
      = some 0x0C ∧
    after { at_ 0x0A [0x56, 2] with regs := { State.reset.regs with x2 := 0x20 }, fl := 0b010 } (fun t => t.pc)
      = some 0x20 := by decide

/-- V18 and V18a. -/
theorem test_jlt :
    after { at_ 0x0A [0x58, 2] with regs := { State.reset.regs with x2 := 0x20 }, fl := 0b100 } (fun t => t.pc)
      = some 0x20 ∧
    after { at_ 0x0A [0x58, 2] with regs := { State.reset.regs with x2 := 0x20 }, fl := 0b010 } (fun t => t.pc)
      = some 0x0C := by decide

/-- V20, first half. -/
theorem test_push :
    after { at_ 4 [0x45, 0] with regs := { State.reset.regs with x0 := 0x2A } }
      (fun t => (t.x .sp, t.mem.read 0xF3, t.pc)) = some (0xF3, 0x2A, 6) := by decide

/-- V24: PUSH R7 stores the decremented SP. -/
theorem test_push_sp :
    after (at_ 0 [0x45, 7]) (fun t => (t.x .sp, t.mem.read 0xF3)) = some (0xF3, 0xF3) := by decide

/-- V22: the clamp at 0xFF. -/
theorem test_pop_clamps :
    after { at_ 0x0C [0x46, 2] with
        regs := { State.reset.regs with x7 := 0xFF }, mem := (at_ 0x0C [0x46, 2]).mem.write 0xFF 0x77 }
      (fun t => (t.x .r2, t.x .sp, t.pc)) = some (0x77, 0xFF, 0x0E) := by decide

/-- V23: POP R7 increments the popped byte. -/
theorem test_pop_sp :
    after { at_ 0x0C [0x46, 7] with
        regs := { State.reset.regs with x7 := 0x80 }, mem := (at_ 0x0C [0x46, 7]).mem.write 0x80 0x33 }
      (fun t => (t.x .sp, t.pc)) = some (0x34, 0x0E) := by decide

/-- V25. -/
theorem test_call :
    after { at_ 6 [0x50, 1] with regs := { State.reset.regs with x1 := 0x20 } }
      (fun t => (t.x .sp, t.mem.read 0xF3, t.pc)) = some (0xF3, 0x08, 0x20) := by decide

/-- V27: CALL R7 jumps to the decremented SP. -/
theorem test_call_sp : after (at_ 3 [0x50, 7]) (fun t => (t.mem.read 0xF3, t.pc)) = some (0x05, 0xF3) := by decide

/-- V26. -/
theorem test_ret :
    after { at_ 0x23 [0x11] with
        regs := { State.reset.regs with x7 := 0xF3 }, mem := (at_ 0x23 [0x11]).mem.write 0xF3 0x08 }
      (fun t => (t.pc, t.x .sp)) = some (0x08, 0xF4) := by decide

/-- V30 and V31. -/
theorem test_ldi :
    after (at_ 0 [0x82, 0, 8]) (fun t => (t.x .r0, t.pc)) = some (8, 3) ∧
    after (at_ 0 [0x82, 7, 0x80]) (fun t => t.x .sp) = some 0x80 := by decide

/-- V33: the byte is appended after what OUT holds. -/
theorem test_prn :
    after { at_ 9 [0x47, 0] with regs := { State.reset.regs with x0 := 17 }, out := [5] } (fun t => (t.out, t.pc))
      = some ([5, 17], 11) := by decide

/-- V34: the first operand is the address. -/
theorem test_st :
    after { at_ 6 [0x84, 0, 1] with regs := { State.reset.regs with x0 := 0xF8, x1 := 0x20 } }
      (fun t => (t.mem.read 0xF8, t.mem.read 0x20, t.pc)) = some (0x20, 0, 9) := by decide

/-- V36 and V37. -/
theorem test_nop_and_hlt :
    after (at_ 0x10 [0x00]) (fun t => (t.pc, t.run)) = some (0x11, .running) ∧
    after (at_ 0x0B [0x01]) (fun t => (t.pc, t.run)) = some (0x0B, .halted) := by decide

/-- V55. -/
theorem test_iret :
    after { at_ 0x35 [0x13] with
        regs := { State.reset.regs with x7 := 0xEB }
        mem := (at_ 0x35 [0x13]).mem.writeFrom 0xEB [0x00, 0x02, 0x00, 0x00, 0x00, 0x30, 0x2A, 0x04, 0x15] }
      (fun t => (t.regs, t.fl, t.pc))
      = some ({ x0 := 0x2A, x1 := 0x30, x2 := 0, x3 := 0, x4 := 0, x5 := 2, x6 := 0, x7 := 0xF4 }, 0b100, 0x15) := by
  decide

/-- V57: IRET meets the clamp. -/
theorem test_iret_clamps :
    after { at_ 0 [0x13] with
        regs := { State.reset.regs with x7 := 0xFC }, mem := (at_ 0 [0x13]).mem.writeFrom 0xFC [1, 2, 3, 4] }
      (fun t => (t.regs, t.fl, t.pc))
      = some ({ x0 := 4, x1 := 4, x2 := 4, x3 := 4, x4 := 3, x5 := 2, x6 := 1, x7 := 0xFF }, 0b100, 4) := by decide

/-! ## Faults -/

/-- V13b and V19b: the bad register byte, the jump untaken. -/
theorem test_register_out_of_range :
    after (at_ 0 [0xA0, 0, 9]) (fun t => t.run) = some (.faulted ⟨.registerOutOfRange, 0, 0xA0, some 9⟩) ∧
    after (at_ 0 [0x55, 8]) (fun t => t.run) = some (.faulted ⟨.registerOutOfRange, 0, 0x55, some 8⟩) := by decide

/-- V21 and V29: a push at SP = 0 writes nothing. -/
theorem test_stack_overflow :
    after { at_ 3 [0x45, 0] with regs := { State.reset.regs with x7 := 0 } } (fun t => (t.run, t.x .sp))
      = some (.faulted ⟨.stackOverflow, 3, 0x45, none⟩, 0) ∧
    after { at_ 3 [0x50, 0] with regs := { State.reset.regs with x7 := 0, x0 := 0x10 } } (fun t => (t.run, t.pc))
      = some (.faulted ⟨.stackOverflow, 3, 0x50, none⟩, 3) := by decide

/-- V40 (second cycle) and V46. -/
theorem test_illegal_instruction :
    after (at_ 3 [0xFF]) (fun t => t.run) = some (.faulted ⟨.illegalInstruction, 3, 0xFF, some 0xFF⟩) ∧
    after (at_ 0 [0x83, 0, 1]) (fun t => t.run) = some (.faulted ⟨.illegalInstruction, 0, 0x83, some 0x83⟩) := by decide

/-- V42, V43 and V44. -/
theorem test_end_of_memory :
    after (at_ 253 [0x82, 0, 8]) (fun t => (t.run, t.x .r0))
      = some (.faulted ⟨.addressOutOfRange, 253, 0x82, some 256⟩, 0) ∧
    after (at_ 253 [0x00]) (fun t => (t.run, t.pc)) = some (.running, 254) ∧
    after (at_ 254 [0x01]) (fun t => t.run) = some (.faulted ⟨.addressOutOfRange, 254, 0x01, some 256⟩) := by decide

/-! ## Interrupts -/

def ticking (s : State) : State := { s with inputs := [{ tick := true, irq := 0 }] }

/-- V50: a masked request stays pending. -/
theorem test_masked_tick :
    after (ticking (at_ 0 [])) (fun t => (t.x .is, t.pc, t.x .sp)) = some (1, 1, 0xF4) := by decide

/-- V51: entry on line 0, then the NOP at its vector in the same cycle. -/
theorem test_entry :
    after (ticking { at_ 0x10 [] with
        regs := { State.reset.regs with x0 := 0xAA, x5 := 1 }, fl := 0b010, mem := [(0xF8, 0x40)] })
      (fun t => (t.mem, t.regs, t.fl, t.pc))
      = some ([(0xEC, 0x01), (0xF1, 0xAA), (0xF2, 0x02), (0xF3, 0x10), (0xF8, 0x40)],
          { x0 := 0, x1 := 0, x2 := 0, x3 := 0, x4 := 0, x5 := 0, x6 := 0, x7 := 0xEB }, 0, 0x41) := by decide

/-- V52: the lowest line wins, and the other stays pending in the saved status. -/
theorem test_lowest_line_wins :
    after { at_ 0x10 [] with
        regs := { State.reset.regs with x5 := 6, x6 := 6 }, mem := [(0xF9, 0x50), (0xFA, 0x60)] }
      (fun t => (t.mem.read 0xEB, t.mem.read 0xEC, t.pc)) = some (4, 6, 0x51) := by decide

/-- V54: no room for the frame. -/
theorem test_entry_overflow :
    after { at_ 9 [] with regs := { State.reset.regs with x5 := 1, x6 := 1, x7 := 8 } }
      (fun t => (t.run, t.x .is, t.x .sp, t.mem)) = some (.faulted ⟨.stackOverflow, 9, 0, none⟩, 1, 8, []) := by decide

/-- R176: with S above 0xF8 the frame can overwrite the vector, which is read after the pushes. -/
theorem test_frame_over_the_vector :
    after { at_ 0x10 [] with regs := { State.reset.regs with x5 := 1, x6 := 1, x7 := 0xF9 } }
      (fun t => (t.mem.read 0xF8, t.pc)) = some (0x10, 0x11) := by decide

/-! ## The ALU block and load -/

/-- 40_alu.md R77's table for the operations with no opcode. -/
theorem test_alu_unreached :
    alu .subtract 0 1 = .byte 255 ∧ alu .subtract 5 5 = .byte 0 ∧ alu .divide 7 2 = .byte 3 ∧
    alu .divide 255 1 = .byte 255 ∧ alu .divide 9 0 = .divisionByZero ∧ alu .modulo 7 2 = .byte 1 ∧
    alu .modulo 5 9 = .byte 5 ∧ alu .modulo 9 0 = .divisionByZero := by decide

theorem test_load :
    (nextOf (State.reset.load [0x82, 0, 8])).map (fun t => t.mem) = some [(0, 0x82), (2, 8)] ∧
    (nextOf ({ State.reset with cycle := 1 }.load [])).isNone := by decide

/-! ## Witnesses: a state and operands that meet the hypotheses of each statement, clause by clause at the boundary -/

/-- A running state at pc 252 with room on the stack. -/
def room : State := { State.reset with pc := 252, regs := { State.reset.regs with x7 := 9 }, inputs := [idle] }

/-- A running state with line 1 pending and enabled. -/
def pending : State :=
  { State.reset with regs := { State.reset.regs with x5 := 2, x6 := 2, x7 := 0xF8 }, inputs := [idle] }

/-- DecodeOfEncodeIsTheInstruction, DecodedInstructionIsWellFormedAndEncodesTheWindow. -/
theorem witness_encoding : (Instr.st 7 7).wf = true ∧ decode 0x84 7 7 = .ok (.st 7 7) := by decide

/-- AluComputesItsSixOperations: each clause. -/
theorem witness_alu :
    (0 : Byte) = 0 ∧ (1 : Byte) ≠ 0 ∧ (7 : Byte) = 7 ∧ (6 : Byte).toNat < (7 : Byte).toNat ∧
    (127 : Byte).toNat < (128 : Byte).toNat ∧ room.x .r0 = 0 := by decide

/-- AddAndMulFollowTheirRules, CmpFollowsItsRule, LdiFollowsItsRule, StFollowsItsRule: a first operand of 8, a second of
8, register bytes at 7, pc at 253 and at 252. -/
theorem witness_three_byte_rules :
    8 ≤ (8 : Byte).toNat ∧ ((7 : Byte).toNat < 8 ∧ 8 ≤ (8 : Byte).toNat) ∧ (7 : Byte) = Reg.r7.byte ∧
    { room with pc := 253 }.pc = 253 ∧ room.pc.toNat < 253 ∧ room.mem.wf = true := by decide

theorem witness_add_and_mul :
    (Instr.mul 7 7, (0xA2 : Byte), Nat.mul) ∈
      [(Instr.add 7 7, (0xA0 : Byte), Nat.add), (Instr.mul 7 7, (0xA2 : Byte), Nat.mul)] := by simp

/-- CmpFollowsItsRule: the three relations, and an instruction that keeps FL. -/
theorem witness_cmp :
    room.x .r0 = room.x .r1 ∧ (room.x .r0).toNat < (room.x .sp).toNat ∧
    (nextOf (exec .nop room)).isSome ∧ Instr.nop.mnemonic ∉ [Mnemonic.cmp, .iret] := by decide

/-- PrnFollowsItsRule, NopFollowsItsRule: pc at 253 and the last register. -/
theorem witness_prn_nop : (7 : Byte) = Reg.r7.byte ∧ { room with pc := 253 }.pc.toNat ≤ 253 := by decide

/-- JumpsFollowTheirRules: each of the four, taken and not taken. -/
theorem witness_jumps :
    (Instr.jne 7, (0x56 : Byte), !State.reset.fl.getLsbD 0) ∈
      [(Instr.jmp 7, (0x54 : Byte), true), (Instr.jeq 7, (0x55 : Byte), State.reset.fl.getLsbD 0),
       (Instr.jne 7, (0x56 : Byte), !State.reset.fl.getLsbD 0), (Instr.jlt 7, (0x58 : Byte), State.reset.fl.getLsbD 2)] ∧
    (!State.reset.fl.getLsbD 0) = true ∧ State.reset.fl.getLsbD 2 = false ∧ { room with pc := 253 }.pc.toNat ≤ 253 := by
  decide

/-- ConditionalJumpsFollowTheRelation: a CMP at pc 250 that answers, each relation; and FL = 0b000 at pc 253. -/
theorem witness_relation :
    { room with pc := 250 }.pc.toNat < 251 ∧ (nextOf (exec (.cmp Reg.r0.byte Reg.r7.byte) { room with pc := 250 })).isSome ∧
    room.x .r0 = room.x .r1 ∧ (room.x .r0).toNat < (room.x .sp).toNat ∧
    { room with pc := 253 }.pc.toNat ≤ 253 ∧ { room with pc := 253 }.fl = 0b000 ∧ 9 ≤ (room.x .sp).toNat := by decide

/-- PushFollowsItsRule, CallFollowsItsRule: SP at 0 and at 1. -/
theorem witness_push_call :
    room.mem.wf = true ∧ { room with pc := 253 }.pc.toNat ≤ 253 ∧
    { room with regs := { room.regs with x7 := 0 } }.x .sp = 0 ∧
    { room with regs := { room.regs with x7 := 1 } }.x .sp ≠ 0 := by decide

/-- PopFollowsItsRule: both clauses, and the round trip. -/
theorem witness_pop :
    Reg.r0 ≠ .sp ∧ Reg.r7 = .sp ∧ room.mem.wf = true ∧ room.x .sp ≠ 0 ∧ { room with pc := 251 }.pc.toNat < 252 := by
  decide

/-- RetFollowsItsRule: a CALL that answers, and a routine that leaves SP and its cell alone. -/
theorem witness_ret :
    room.mem.wf = true ∧ room.x .sp ≠ 0 ∧ room.pc.toNat ≤ 253 ∧
    (nextOf (exec (.call Reg.r7.byte) room)).map (fun t => (t.x .sp, t.mem.read (t.x .sp))) = some (8, 254) ∧
    (let u := { State.reset with regs := { State.reset.regs with x7 := 8 }, mem := [(8, 254)] }
     (u.x .sp, u.mem.read (u.x .sp)) = (8, 254)) := by decide

/-- HltFollowsItsRule: an HLT at pc 253, the window at 254, and a halted machine. -/
theorem witness_hlt :
    (at_ 253 [1]).run = .running ∧ (interruptPhase (at_ 253 [1])).run = .running ∧
    (interruptPhase (at_ 253 [1])).pc.toNat ≤ 253 ∧
    (interruptPhase (at_ 253 [1])).mem.read (interruptPhase (at_ 253 [1])).pc = 1 ∧
    253 < (interruptPhase (at_ 254 [1])).pc.toNat ∧ (interruptPhase (at_ 254 [1])).run = .running ∧
    { room with run := .halted }.run = .halted := by decide

/-- The frames over all instructions: exec answers a next state with a register, a byte, flags and OUT outside its
rule. -/
theorem witness_frames :
    (nextOf (exec (.push 0) room)).isSome ∧ Reg.r0.byte ∉ (Instr.push 0).writes ∧
    (0 : Byte) ∉ (Instr.push 0).storesTo room ∧
    (Instr.push 0).mnemonic ∉ [Mnemonic.cmp, Mnemonic.iret] ∧ (Instr.push 0).mnemonic ≠ .prn := by decide

/-- SequentialInstructionsAdvanceByTheirWidth: LDI at 253 and at 252, PUSH at 253. -/
theorem witness_sequential :
    (Instr.ldi 7 0).wf = true ∧ (Instr.ldi 7 0).mnemonic ∈ [Mnemonic.nop, .ldi, .prn, .add, .mul, .cmp, .push, .pop, .st] ∧
    { room with pc := 253 }.pc.toNat + (encode (.ldi 7 0)).length = 256 ∧
    room.pc.toNat + (encode (.ldi 7 0)).length < 256 ∧
    { room with pc := 253 }.pc.toNat + (encode (.push 7)).length < 256 ∧ room.x .sp ≠ 0 := by decide

/-- FaultingInstructionsWriteNothing. -/
theorem witness_fault :
    room.run = .running ∧
    (nextOf (exec (.add 8 0) room)).map (fun t => t.run) =
      some (.faulted ⟨.registerOutOfRange, 252, 0, some 8⟩) := by decide

/-- MemoryHoldsTheLastByteWritten, CanonicalMemoriesThatReadAlikeAreEqual, StoreIsSeenByTheNextFetch. -/
theorem witness_memory :
    Memory.wf [(3, 1), (255, 7)] = true ∧
    (let s := { room with pc := 250, regs := { room.regs with x0 := 253 } }
     s.mem.wf = true ∧ s.pc.toNat < 251 ∧
     (nextOf (exec (.st Reg.r0.byte Reg.r7.byte) s)).map (fun t => t.pc) = some (s.x .r0)) ∧
    (let s := { room with pc := 250, regs := { room.regs with x0 := 255 } }
     (nextOf (exec (.st Reg.r0.byte Reg.r7.byte) s)).map (fun t => t.pc + 2) = some (s.x .r0)) := by decide

/-- SamplingOrsTheInputsIntoStatus, SamplingNeverClearsAPendingBit. -/
theorem witness_sampling :
    (ticking pending).inputs = [{ tick := true, irq := 0 }] ∧ ((ticking pending).x .is).getLsbD 1 = true ∧
    (ticking pending).nextInput.irq = 0 ∧ (7 : Line) ≠ 0 := by decide

/-- LowestEligibleLineIsTaken: no line, line 1, and line 0 at the end of the range. -/
theorem witness_arbitration :
    room.x .im &&& room.x .is = 0 ∧
    (pending.x .im &&& pending.x .is).getLsbD 1 = true ∧
    (∀ j : Line, j < 1 → (pending.x .im &&& pending.x .is).getLsbD j.val = false) ∧
    pending.mem.wf = true ∧ 9 ≤ (pending.x .sp).toNat ∧ (7 : Line) ≠ 1 := by decide

/-- IretFollowsItsRule: an IRET that brings line 7 back, pending and enabled. -/
theorem witness_iret :
    (nextOf (exec .iret { State.reset with mem := [(0xF4, 0x80), (0xF5, 0x80)] })).map
      (fun t => ((t.x .im).getLsbD 7, (t.x .is).getLsbD 7)) = some (true, true) := by decide

/-- InterruptEntryPushesItsFrame: SP at 8 and at 9. -/
theorem witness_entry :
    room.mem.wf = true ∧ ({ room with regs := { room.regs with x7 := 8 } }.x .sp).toNat < 9 ∧
    9 ≤ (room.x .sp).toNat := by decide

/-- InterruptRoundTrip: the routine that is IRET alone. -/
theorem witness_round_trip :
    room.mem.wf = true ∧ 9 ≤ (room.x .sp).toNat ∧
    (enterInterrupt 7 room).x .sp = (enterInterrupt 7 room).x .sp := ⟨by decide, by decide, rfl⟩

/-- IretDiscardsLiveRegisters: two states that differ in x[6] and FL. -/
theorem witness_iret_discards :
    room ≠ { room with regs := { room.regs with x6 := 4 }, fl := 1 } ∧
    room.x .sp = { room with regs := { room.regs with x6 := 4 }, fl := 1 }.x .sp ∧
    room.mem = { room with regs := { room.regs with x6 := 4 }, fl := 1 }.mem := by decide

/-- MaskZeroTakesNoInterrupt: with every line requested. -/
theorem witness_mask_zero :
    { room with inputs := [{ tick := true, irq := 0xFF }] }.x .im = 0 ∧ 9 ≤ (room.x .sp).toNat := by decide

/-- EnabledPendingLineIsEnteredWithinOneCycle. -/
theorem witness_enabled_pending :
    pending.run = .running ∧ pending.mem.wf = true ∧ 9 ≤ (pending.x .sp).toNat ∧ (pending.x .sp).toNat ≤ 0xF8 ∧
    (pending.x .im).getLsbD 1 = true ∧ (pending.x .is).getLsbD 1 = true ∧
    (∀ j : Line, j < 1 → (pending.x .im).getLsbD j.val = false) := by decide

/-- StepRunsTheDecodedInstruction: after an interrupt entry too. -/
theorem witness_step :
    (at_ 252 [0xA0, 7, 7]).run = .running ∧ (interruptPhase (at_ 252 [0xA0, 7, 7])).run = .running ∧
    (interruptPhase (at_ 252 [0xA0, 7, 7])).pc.toNat ≤ 253 ∧
    (let u := interruptPhase (at_ 252 [0xA0, 7, 7])
     decode (u.mem.read u.pc) (u.mem.read (u.pc + 1)) (u.mem.read (u.pc + 2)) = .ok (.add 7 7)) ∧
    (interruptPhase pending).run = .running ∧ interruptPhase pending ≠ sample pending := by decide

/-- PhaseBChecksInOrder, IllegalInstructionRecordsTheOpcodeByte: a window for each clause. -/
theorem witness_phase_b :
    (interruptPhase (at_ 254 [])).run = .running ∧ 253 < (interruptPhase (at_ 254 [])).pc.toNat ∧
    (at_ 253 [1]).mem.read 253 = 0x01 ∧ (at_ 253 [0xFF]).mem.read 253 ∉ opcodeBytes ∧
    ((at_ 253 [0x55, 8]).mem.read 253 ∈ firstOperandIsRegister ∧ 8 ≤ ((at_ 253 [0x55, 8]).mem.read 254).toNat) ∧
    ((at_ 253 [0xA0, 7, 8]).mem.read 253 ∈ secondOperandIsRegister ∧ ((at_ 253 [0xA0, 7, 8]).mem.read 254).toNat < 8 ∧
      8 ≤ ((at_ 253 [0xA0, 7, 8]).mem.read 255).toNat) ∧
    ((at_ 253 [0xA0, 7, 7]).mem.read 253 ∈ threeByteOpcodes ∧ ((at_ 253 [0xA0, 7, 7]).mem.read 254).toNat < 8 ∧
      ((at_ 253 [0xA0, 7, 7]).mem.read 255).toNat < 8) ∧
    (at_ 253 [0x45, 7]).mem.read 253 ∈ [(0x45 : Byte), 0x50] ∧ { room with regs := { room.regs with x7 := 0 } }.x .sp = 0 ∧
    (at_ 252 [0xA0, 7, 7]).mem.read 252 ∈ opcodeBytes ∧ (at_ 252 [0xA0, 7, 7]).mem.read 252 ≠ 0x01 := by decide

theorem witness_illegal :
    (at_ 253 [0xFF]).run = .running ∧ (interruptPhase (at_ 253 [0xFF])).run = .running ∧
    (interruptPhase (at_ 253 [0xFF])).pc.toNat ≤ 253 ∧
    (interruptPhase (at_ 253 [0xFF])).mem.read (interruptPhase (at_ 253 [0xFF])).pc ∉ opcodeBytes ∧
    (nextOf (step (at_ 253 [0xFF]))).isSome := by decide

/-- EntryOverflowEndsTheCycleBeforeTheFetch: SP at 8. -/
theorem witness_entry_overflow :
    let s := { pending with regs := { pending.regs with x7 := 8 } }
    s.run = .running ∧ (sample s).x .im &&& (sample s).x .is ≠ 0 ∧ (s.x .sp).toNat < 9 := by decide

/-- HaltedAndFaultedAreAbsorbing: a halted machine, a step that halts, a step that faults. -/
theorem witness_run :
    { room with run := .halted }.run ≠ .running ∧
    after (at_ 0 [1]) (fun t => t.run) = some .halted ∧
    after (at_ 0 [2]) (fun t => t.run) = some (.faulted ⟨.illegalInstruction, 0, 2, some 2⟩) := by decide

/-- OutputGrowsOnlyByPrn: a PRN R7 at pc 253 meets the premises of its clause. -/
theorem witness_output :
    (at_ 253 [0x47, 7]).run = .running ∧ (interruptPhase (at_ 253 [0x47, 7])).run = .running ∧
    (interruptPhase (at_ 253 [0x47, 7])).pc.toNat ≤ 253 ∧
    (interruptPhase (at_ 253 [0x47, 7])).mem.read (interruptPhase (at_ 253 [0x47, 7])).pc = 0x47 ∧
    (interruptPhase (at_ 253 [0x47, 7])).mem.read ((interruptPhase (at_ 253 [0x47, 7])).pc + 1) = Reg.r7.byte := by
  decide

/-- MemoryChangesOnlyByStPushCallOrEntry: an ST whose address register is the sampled x[6], an undecodable window, a pc of
254, each with no line eligible. -/
theorem witness_memory_changes :
    (let s := { at_ 252 [0x84, 6, 7] with inputs := [{ tick := false, irq := 0x80 }] }
     (sample s).x .im &&& (sample s).x .is = 0 ∧ (nextOf (step s)).map (fun t => t.mem.read 0x80) = some 0xF4 ∧
     decode (s.mem.read s.pc) (s.mem.read (s.pc + 1)) (s.mem.read (s.pc + 2)) = .ok (.st 6 7) ∧
     (Instr.st 6 7).storesTo (sample s) = [0x80]) ∧
    decode ((at_ 0 [0xFF]).mem.read 0) 0 0 = .error (.illegalInstruction 0xFF) ∧ (nextOf (step (at_ 0 [0xFF]))).isSome ∧
    253 < (at_ 254 []).pc.toNat ∧ (nextOf (step (at_ 254 []))).isSome := by decide

/-- OutputGrowsOnlyByPrn, FlagsChangeOnlyByCmpIretOrEntry, MemoryChangesOnlyByStPushCallOrEntry,
RunRepeatsStepUntilRunLeavesRunning: steps that do each, and the frame of one that does none. -/
theorem witness_changes :
    after (at_ 0 [0x47, 7]) (fun t => t.out) = some [0xF4] ∧
    after (at_ 0 [0xA7, 7, 0]) (fun t => decide (t.fl ≠ (at_ 0 []).fl)) = some true ∧
    (sample (at_ 0 [])).x .im &&& (sample (at_ 0 [])).x .is = 0 ∧
    (at_ 0 []).mem.read (at_ 0 []).pc ∉ [(0x84 : Byte), 0x45, 0x50] ∧ (nextOf (step (at_ 0 []))).isSome := by decide

/-- StepKeepsTheInvariant: a state that meets it and steps. -/
theorem witness_inv : (at_ 0 [1]).Inv ∧ (nextOf (step (at_ 0 [1]))).isSome := ⟨⟨by decide, trivial⟩, by decide⟩

/-- LoadWritesTheImageFromAddressZero: each clause, an image of 256 bytes and one of 257. -/
theorem witness_load :
    State.reset.mem.wf = true ∧ { State.reset with cycle := 1 }.cycle ≠ 0 ∧ State.reset.cycle = 0 ∧
    (List.replicate 256 (1 : Byte)).length ≤ 256 ∧ 256 < (List.replicate 257 (1 : Byte)).length :=
  ⟨by decide, by decide, rfl, by rw [List.length_replicate], by rw [List.length_replicate]; decide⟩

/-- PlacedWordIsTheNextInstruction: at the reset state and with a line pending at pc 255. -/
theorem witness_placed :
    { pending with pc := 255 }.mem.wf = true ∧ decodeTableWord 24 0x0100A0 = some (.add 0 1) := by decide

end Sys2Proof.Tests
end

/-! ## What an instruction does to RUN, and what a faulting one leaves (00_scope.md R7) -/

namespace Sys2Proof.Machine

@[simp] theorem pushWith_run (s : State) (value : State → Byte) : (pushWith s value).run = s.run := rfl
@[simp] theorem pushByte_run (v : Byte) (s : State) : (pushByte v s).run = s.run := rfl
@[simp] theorem dropTop_run (s : State) : (dropTop s).run = s.run := rfl
@[simp] theorem popPc_run (s : State) : (popPc s).run = s.run := rfl

/-- The model's fault and the one the statements write out are the same state. -/
theorem State.faulted_eq_stoppedBy (s : State) (k : FaultKind) (info : Option Nat) :
    s.faulted k info = s.stoppedBy k info := rfl

/-- An instruction raises a fault on the state it found, is HLT, or leaves RUN alone. -/
theorem exec_run_cases {i : Instr} {s t : State} (h : exec i s = .next t) :
    (∃ k info, t = s.faulted k info) ∨ (i = .hlt ∧ t = s.setRun .halted) ∨ t.run = s.run := by
  cases exec_cases h with
  | fault k info ht => exact .inl ⟨k, info, ht⟩
  | hlt hi ht => exact .inr (.inl ⟨hi, ht⟩)
  | _ =>
    subst_vars
    exact .inr (.inr (by simp))

/-- Where an instruction ends a running machine with a fault, it raised that fault on the state it found. -/
theorem exec_eq_faulted_of_run {i : Instr} {s t : State} {r : FaultRecord} (hs : s.run = .running)
    (h : exec i s = .next t) (hr : t.run = .faulted r) : ∃ k info, t = s.faulted k info := by
  obtain hf | ⟨_, rfl⟩ | hrun := exec_run_cases h
  · exact hf
  · cases hr
  · rw [hrun, hs] at hr
    cases hr

end Sys2Proof.Machine

section

open Sys2Proof Sys2Proof.Machine

/-- Settles O24: exec raises every fault on the state it was given, so the record is that state's own. -/
theorem faultingInstructionsWriteNothing : Obligations.FaultingInstructionsWriteNothing := by
  intro i s t r hs h hr
  obtain ⟨k, info, rfl⟩ := exec_eq_faulted_of_run hs h hr
  obtain rfl := Run.faulted.inj hr
  exact ⟨s.faulted_eq_stoppedBy k info, rfl, rfl⟩

end

/-! ## What a decoded window is (43_dispatch_loop.md R124, R125, R127) -/

namespace Sys2Proof

open Machine (opcodeBytes firstOperandIsRegister)

@[simp] theorem Mnemonic.mnemonic_withOperands (m : Mnemonic) (opa opb : Byte) :
    (m.withOperands opa opb).mnemonic = m := by cases m <;> rfl

theorem opc_of_lookupOpcode {ir : Byte} {m : Mnemonic} (h : lookupOpcode ir = some m) : opc m = ir := by
  simpa using List.find?_some h

theorem not_mem_opcodeBytes_of_lookupOpcode {ir : Byte} (h : lookupOpcode ir = none) : ir ∉ opcodeBytes := by
  have hne : ∀ m ∈ mnemonics, opc m ≠ ir := by simpa [lookupOpcode] using h
  have hbytes : opcodeBytes = mnemonics.map opc := rfl
  rw [hbytes]
  exact fun hmem => let ⟨m, hm, e⟩ := List.mem_map.mp hmem; hne m hm e

/-- A format without register operands refuses none, and the byte refused is above 7. -/
theorem of_firstBadRegister_eq_some {f : Format} {opa opb b : Byte} (h : firstBadRegister f opa opb = some b) :
    f ≠ .z ∧ 8 ≤ b.toNat := by
  have ge_of_not {v : Byte} (hv : ¬ isRegByte v = true) : 8 ≤ v.toNat := by simpa [isRegByte] using hv
  cases f <;> simp only [firstBadRegister] at h
  case z => cases h
  case r | ri =>
    split at h
    · cases h
    · next ha => cases h; exact ⟨nofun, ge_of_not ha⟩
  case rr =>
    split at h
    · split at h
      · cases h
      · next hb => cases h; exact ⟨nofun, ge_of_not hb⟩
    · next ha => cases h; exact ⟨nofun, ge_of_not ha⟩

theorem opc_mem_firstOperandIsRegister {m : Mnemonic} (h : m.format ≠ .z) : opc m ∈ firstOperandIsRegister := by
  revert h
  cases m <;> decide

theorem isRegByte_of_firstBadRegister_r {opa opb : Byte} (h : firstBadRegister .r opa opb = none) :
    isRegByte opa = true := by
  by_contra ha
  simp [firstBadRegister, ha] at h

theorem isRegByte_both_of_firstBadRegister_rr {opa opb : Byte} (h : firstBadRegister .rr opa opb = none) :
    (isRegByte opa && isRegByte opb) = true := by
  by_cases ha : isRegByte opa = true <;> simp_all [firstBadRegister]

/-- Where the check of R125 finds no bad register byte, the instruction is well formed. -/
theorem Mnemonic.wf_withOperands {m : Mnemonic} {opa opb : Byte} (h : firstBadRegister m.format opa opb = none) :
    (m.withOperands opa opb).wf = true := by
  cases m
  case nop | hlt | ret | iret => rfl
  case st | add | mul | cmp => exact isRegByte_both_of_firstBadRegister_rr h
  all_goals exact isRegByte_of_firstBadRegister_r (opb := opb) h

theorem decode_illegalInstruction {ir opa opb b : Byte} (h : decode ir opa opb = .error (.illegalInstruction b)) :
    b = ir ∧ ir ∉ opcodeBytes := by
  unfold decode at h
  split at h
  · next hl => cases h; exact ⟨rfl, not_mem_opcodeBytes_of_lookupOpcode hl⟩
  · split at h <;> cases h

theorem decode_registerOutOfRange {ir opa opb b : Byte} (h : decode ir opa opb = .error (.registerOutOfRange b)) :
    ir ∈ firstOperandIsRegister ∧ 8 ≤ b.toNat := by
  unfold decode at h
  split at h
  · cases h
  · next m hl =>
    split at h
    · next hb =>
      cases h
      obtain ⟨hz, hge⟩ := of_firstBadRegister_eq_some hb
      exact ⟨opc_of_lookupOpcode hl ▸ opc_mem_firstOperandIsRegister hz, hge⟩
    · cases h

/-- A decoded instruction is its row's, with the fetched operand bytes, none of which is a bad register. -/
theorem decode_ok {ir opa opb : Byte} {i : Instr} (h : decode ir opa opb = .ok i) :
    ∃ m : Mnemonic, opc m = ir ∧ firstBadRegister m.format opa opb = none ∧ i = m.withOperands opa opb := by
  unfold decode at h
  split at h
  · cases h
  · next m hl =>
    split at h
    · cases h
    · next hb => cases h; exact ⟨m, opc_of_lookupOpcode hl, hb, rfl⟩

theorem decode_ok_wf {ir opa opb : Byte} {i : Instr} (h : decode ir opa opb = .ok i) : i.wf = true := by
  obtain ⟨m, -, hb, rfl⟩ := decode_ok h
  exact Mnemonic.wf_withOperands hb

theorem decode_ok_opcode {ir opa opb : Byte} {i : Instr} (h : decode ir opa opb = .ok i) : ir = opc i.mnemonic := by
  obtain ⟨m, rfl, -, rfl⟩ := decode_ok h
  rw [Mnemonic.mnemonic_withOperands]

theorem decode_prn (a : Reg) (opb : Byte) : decode 0x47 a.byte opb = .ok (.prn a.byte) := by cases a <;> rfl

theorem decode_ok_prn {ir opa opb a : Byte} (h : decode ir opa opb = .ok (.prn a)) : opa = a := by
  obtain ⟨m, -, -, e⟩ := decode_ok h
  cases m <;> cases e
  rfl

end Sys2Proof

/-! ## The canonical form of MEM through instructions and interrupts -/

namespace Sys2Proof.Machine

@[simp] theorem dropTop_mem (s : State) : (dropTop s).mem = s.mem := rfl
@[simp] theorem popPc_mem (s : State) : (popPc s).mem = s.mem := rfl

theorem exec_mem_wf {i : Instr} {s t : State} (hm : s.mem.wf = true) (h : exec i s = .next t) : t.mem.wf = true := by
  cases exec_cases h <;> subst_vars
  case push => simpa [pushWith_mem] using Memory.write_wf hm _ _
  case call => simpa [pushByte_mem] using Memory.write_wf hm _ _
  case st => simpa using Memory.write_wf hm _ _
  all_goals simpa using hm

/-- Everything phases A1 and A2 can do: sample alone, find no room for the frame, or enter line i. -/
theorem interruptPhase_cases (s : State) :
    interruptPhase s = sample s ∨
    interruptPhase s = (sample s).faulted .stackOverflow none ∨
    ∃ i, 9 ≤ ((sample s).x .sp).toNat ∧ interruptPhase s = enterInterrupt i (sample s) := by
  obtain ⟨-, e⟩ | ⟨i, -, ⟨-, e⟩ | ⟨hsp, e⟩⟩ := arbitrate_cases (sample s)
  · exact .inl e
  · exact .inr (.inl e)
  · exact .inr (.inr ⟨i, hsp, e⟩)

/-- Where phase A2 stops a running machine, it has raised StackOverflow on the sampled state (60_exceptions.md R174). -/
theorem interruptPhase_eq_faulted {s : State} (hs : s.run = .running) (hu : (interruptPhase s).run ≠ .running) :
    interruptPhase s = (sample s).faulted .stackOverflow none := by
  obtain e | e | ⟨i, hsp, e⟩ := interruptPhase_cases s
  · rw [e, sample_run] at hu
    exact absurd hs hu
  · exact e
  · rw [e, enterInterrupt_of_ge hsp] at hu
    exact absurd hs hu

theorem interruptPhase_mem_wf {s : State} (hm : s.mem.wf = true) : (interruptPhase s).mem.wf = true := by
  obtain e | e | ⟨i, hsp, e⟩ := interruptPhase_cases s <;> rw [e]
  · exact hm
  · exact hm
  · rw [enterInterrupt_of_ge hsp]
    exact frameWritten_wf (s := sample s) hm i

/-! ## The faults a cycle can raise (60_exceptions.md R150 to R157) -/

/-- Where an outcome is a faulted state, the record is one the spec allows. -/
def FaultsLegally (o : Result) : Prop := ∀ t r, o = .next t → t.run = .faulted r → r.Legal

theorem faultsLegally_next {t : State} (h : t.safe = true) : FaultsLegally (.next t) := by
  rintro _ r ⟨⟩ hr
  simp [State.safe, hr] at h

theorem faultsLegally_raise {k : FaultKind} {info : Option Nat} {s : State}
    (h : FaultRecord.Legal ⟨k, s.pc, s.mem.read s.pc, info⟩) : FaultsLegally (raise k info s) := by
  rintro _ r ⟨⟩ hr
  obtain rfl := Run.faulted.inj hr
  exact h

theorem withReg_faultsLegally {ra : Byte} (h : isRegByte ra = true) {s : State} {k : Reg → Result}
    (hk : ∀ a, FaultsLegally (k a)) : FaultsLegally (withReg ra s k) := by
  obtain ⟨a, rfl⟩ := Reg.exists_byte (of_decide_eq_true h)
  rw [withReg_byte]
  exact hk a

theorem withRegs_faultsLegally {ra rb : Byte} (h : (isRegByte ra && isRegByte rb) = true) {s : State}
    {k : Reg → Reg → Result} (hk : ∀ a b, FaultsLegally (k a b)) : FaultsLegally (withRegs ra rb s k) := by
  obtain ⟨ha, hb⟩ := Bool.and_eq_true_iff.mp h
  exact withReg_faultsLegally ha fun a => withReg_faultsLegally hb (hk a)

/-- With at most two operand bytes the advance leaves memory only from pc 253 up. -/
theorem withNextPc_faultsLegally {n : Nat} (hn : n ≤ 2) {s : State} {k : Byte → Result}
    (hk : ∀ p, FaultsLegally (k p)) : FaultsLegally (withNextPc n s k) := by
  by_cases hp : s.pc.toNat + 1 + n < 256
  · rw [withNextPc_of_lt hp]
    exact hk _
  · rw [withNextPc_of_ge (by omega)]
    have hpc : 253 ≤ s.pc.toNat := by omega
    exact faultsLegally_raise ⟨hpc, rfl⟩

theorem sequential_faultsLegally {n : Nat} (hn : n ≤ 2) {s : State} {effect : State → State}
    (h : (effect s).safe = true) : FaultsLegally (sequential n s effect) :=
  withNextPc_faultsLegally hn fun _ => faultsLegally_next h

theorem withStackRoom_faultsLegally {s : State} {k : Result} (hk : FaultsLegally k) :
    FaultsLegally (withStackRoom s k) := by
  obtain ⟨-, e⟩ | ⟨-, e⟩ := withStackRoom_cases s k <;> rw [e]
  · exact faultsLegally_raise rfl
  · exact hk

theorem jumpWhen_faultsLegally {taken : Bool} {ra : Byte} (h : isRegByte ra = true) {s : State}
    (hs : s.safe = true) : FaultsLegally (jumpWhen taken ra s) :=
  withReg_faultsLegally h fun a => by
    cases taken
    · exact sequential_faultsLegally (by decide) hs
    · exact faultsLegally_next hs

/-- A well-formed instruction raises only the faults of the advance and of the stack. -/
theorem exec_faultsLegally {i : Instr} (hw : i.wf = true) {s : State} (hs : s.safe = true) :
    FaultsLegally (exec i s) := by
  cases i with
  | nop => exact sequential_faultsLegally (by decide) hs
  | hlt => exact faultsLegally_next rfl
  | ret => exact faultsLegally_next (by simpa [State.safe] using hs)
  | iret => exact faultsLegally_next (by simpa [State.safe] using hs)
  | push | call =>
    exact withReg_faultsLegally hw fun a => withNextPc_faultsLegally (by decide) fun p =>
      withStackRoom_faultsLegally (faultsLegally_next hs)
  | pop | prn | ldi => exact withReg_faultsLegally hw fun a => sequential_faultsLegally (by decide) hs
  | jmp | jeq | jne | jlt => exact jumpWhen_faultsLegally hw hs
  | st | add | mul | cmp => exact withRegs_faultsLegally hw fun a b => sequential_faultsLegally (by decide) hs

theorem executePhase_faultsLegally {u : State} (hu : u.safe = true) : FaultsLegally (executePhase u) := by
  by_cases hp : u.pc.toNat ≤ 253
  · simp only [executePhase, fetch_of_le hp]
    split
    · next hd =>
      obtain ⟨rfl, hir⟩ := decode_illegalInstruction hd
      exact faultsLegally_raise ⟨hir, rfl⟩
    · next b hd =>
      obtain ⟨hir, hge⟩ := decode_registerOutOfRange hd
      exact faultsLegally_raise ⟨hir, b, hge, rfl⟩
    · next hd => exact exec_faultsLegally (decode_ok_wf hd) hu
  · rw [executePhase, fetch_of_gt (by omega)]
    have hpc : 253 ≤ u.pc.toNat := by omega
    exact faultsLegally_raise ⟨hpc, rfl⟩

/-! ## The invariant through one step -/

theorem State.Inv.mem_wf {s : State} (h : s.Inv) : s.mem.wf = true := h.1

theorem State.inv_of_running {s : State} (hm : s.mem.wf = true) (hs : s.run = .running) : s.Inv :=
  ⟨hm, by rw [hs]; trivial⟩

theorem State.inv_halted {s : State} (hm : s.mem.wf = true) (h : s.mem.read s.pc = 0x01) : (s.setRun .halted).Inv :=
  ⟨hm, h⟩

theorem State.inv_faulted {s : State} (hm : s.mem.wf = true) {k : FaultKind} {info : Option Nat}
    (h : FaultRecord.Legal ⟨k, s.pc, s.mem.read s.pc, info⟩) : (s.faulted k info).Inv := ⟨hm, h, rfl, rfl⟩

theorem step_keeps_inv {s t : State} (hinv : s.Inv) (h : step s = .next t) : t.Inv := by
  have hm : (interruptPhase s).mem.wf = true := interruptPhase_mem_wf hinv.mem_wf
  have legal (hs : s.run = .running) (hu : (interruptPhase s).run = .running) : FaultsLegally (.next t) := by
    rw [← h, step_eq_executePhase hs hu]
    exact executePhase_faultsLegally (by simp [State.safe, hu])
  cases step_cases h with
  | stopped _ ht => rwa [ht]
  | entryFault hs hu ht =>
    rw [ht, interruptPhase_eq_faulted hs hu]
    exact State.inv_faulted hinv.mem_wf rfl
  | fault hs hu k info ht =>
    subst ht
    exact State.inv_faulted hm (legal hs hu _ _ rfl rfl)
  | executed hs hu _ i hd hi =>
    obtain ⟨k, info, rfl⟩ | ⟨rfl, rfl⟩ | hrun := exec_run_cases hi
    · exact State.inv_faulted hm (legal hs hu _ _ rfl rfl)
    · exact State.inv_halted hm (decode_ok_opcode hd)
    · exact State.inv_of_running (exec_mem_wf hm hi) (hrun.trans hu)

end Sys2Proof.Machine

section

open Sys2Proof Sys2Proof.Machine

/-- Settles O46, by the cases of a step: phase B's faults are legal because what it decodes is well formed. -/
theorem stepKeepsTheInvariant : Obligations.StepKeepsTheInvariant :=
  fun _ _ hinv h => step_keeps_inv hinv h

end

/-! ## What an instruction leaves unchanged: registers, FL, OUT and the inputs (10_state.md R13, R18, R21) -/

namespace Sys2Proof

theorem Reg.ne_of_byte_ne {r q : Reg} (h : r.byte ≠ q.byte) : r ≠ q := fun e => h (congrArg Reg.byte e)

end Sys2Proof

namespace Sys2Proof.Machine

variable (s : State)

@[simp] theorem pushWith_fl (value : State → Byte) : (pushWith s value).fl = s.fl := rfl
@[simp] theorem pushWith_out (value : State → Byte) : (pushWith s value).out = s.out := rfl
@[simp] theorem pushWith_inputs (value : State → Byte) : (pushWith s value).inputs = s.inputs := rfl
@[simp] theorem pushWith_cycle (value : State → Byte) : (pushWith s value).cycle = s.cycle := rfl
@[simp] theorem pushWith_x_ne (value : State → Byte) {r : Reg} (h : r ≠ .sp) : (pushWith s value).x r = s.x r :=
  Regs.get_set_ne _ _ h

@[simp] theorem pushByte_fl (v : Byte) : (pushByte v s).fl = s.fl := rfl
@[simp] theorem pushByte_out (v : Byte) : (pushByte v s).out = s.out := rfl
@[simp] theorem pushByte_inputs (v : Byte) : (pushByte v s).inputs = s.inputs := rfl
@[simp] theorem pushByte_cycle (v : Byte) : (pushByte v s).cycle = s.cycle := rfl
@[simp] theorem pushByte_x_ne (v : Byte) {r : Reg} (h : r ≠ .sp) : (pushByte v s).x r = s.x r :=
  Regs.get_set_ne _ _ h

@[simp] theorem dropTop_fl : (dropTop s).fl = s.fl := rfl
@[simp] theorem dropTop_out : (dropTop s).out = s.out := rfl
@[simp] theorem dropTop_inputs : (dropTop s).inputs = s.inputs := rfl
@[simp] theorem dropTop_cycle : (dropTop s).cycle = s.cycle := rfl
@[simp] theorem dropTop_x_ne {r : Reg} (h : r ≠ .sp) : (dropTop s).x r = s.x r := Regs.get_set_ne _ _ h

@[simp] theorem popPc_fl : (popPc s).fl = s.fl := rfl
@[simp] theorem popPc_out : (popPc s).out = s.out := rfl
@[simp] theorem popPc_inputs : (popPc s).inputs = s.inputs := rfl
@[simp] theorem popPc_cycle : (popPc s).cycle = s.cycle := rfl
@[simp] theorem popPc_x_ne {r : Reg} (h : r ≠ .sp) : (popPc s).x r = s.x r := Regs.get_set_ne _ _ h

variable {s} {i : Instr} {t : State}

/-- The frame of the register file: exec writes the registers of the column "writes" of 10_state.md R13 alone. -/
theorem exec_x_of_not_mem_writes (h : exec i s = .next t) {r : Reg} (hr : r.byte ∉ i.writes) : t.x r = s.x r := by
  cases exec_cases h <;> subst_vars
  case jump a target hi _ => rfl
  case iret => exact absurd (by cases r <;> decide) hr
  case ret | push | call =>
    have hsp : r ≠ .sp := Reg.ne_of_byte_ne (List.ne_of_not_mem_cons hr)
    simp [hsp]
  case pop a _ =>
    have ha : r ≠ a := Reg.ne_of_byte_ne (List.ne_of_not_mem_cons hr)
    have hsp : r ≠ .sp := Reg.ne_of_byte_ne (List.ne_of_not_mem_cons (List.not_mem_of_not_mem_cons hr))
    simp [ha, hsp]
  case ldi a _ _ | add a _ _ | mul a _ _ =>
    have ha : r ≠ a := Reg.ne_of_byte_ne (List.ne_of_not_mem_cons hr)
    simp [ha]
  all_goals simp

theorem exec_fl (h : exec i s = .next t) (hi : i.mnemonic ∉ [Mnemonic.cmp, .iret]) : t.fl = s.fl := by
  cases exec_cases h <;> subst_vars
  case cmp | iret => exact absurd (by simp [Instr.mnemonic]) hi
  all_goals simp

/-- OUT after an instruction: as it was, or with the byte PRN appends. -/
theorem exec_out_cases (h : exec i s = .next t) :
    t.out = s.out ∨ ∃ a : Reg, i = .prn a.byte ∧ t.out = s.out ++ [s.x a] := by
  cases exec_cases h <;> subst_vars
  case prn a _ => exact .inr ⟨a, rfl, rfl⟩
  all_goals exact .inl (by simp)

theorem exec_inputs (h : exec i s = .next t) : t.inputs = s.inputs ∧ t.cycle = s.cycle := by
  cases exec_cases h <;> subst_vars <;> simp

end Sys2Proof.Machine

section

open Sys2Proof Sys2Proof.Machine

/-- Settles O20, by the register frame of exec. -/
theorem instructionsWriteOnlyTheirRegisters : Obligations.InstructionsWriteOnlyTheirRegisters :=
  fun _ _ _ h _ hr => exec_x_of_not_mem_writes h hr

/-- Settles O22, by the frames of FL, OUT and the inputs. -/
theorem instructionsKeepFlagsOutputAndInputs : Obligations.InstructionsKeepFlagsOutputAndInputs := by
  intro i s t h
  refine ⟨exec_fl h, fun hprn => ?_, exec_inputs h⟩
  obtain e | ⟨a, rfl, -⟩ := exec_out_cases h
  · exact e
  · exact absurd rfl hprn

end

/-! ## What a step does to RUN (10_state.md R19) -/

namespace Sys2Proof.Machine

variable {s t : State}

/-- A running machine halts only where phase B decodes HLT on the state of phases A1 and A2. -/
theorem step_halts (hs : s.run = .running) (h : step s = .next t) (ht : t.run = .halted) :
    (interruptPhase s).pc.toNat ≤ 253 ∧ (interruptPhase s).mem.read (interruptPhase s).pc = 0x01 ∧
      t = (interruptPhase s).setRun .halted := by
  cases step_cases h with
  | stopped hns => exact absurd hs hns
  | entryFault _ hu e =>
    rw [e, interruptPhase_eq_faulted hs hu] at ht
    cases ht
  | fault _ _ k info e =>
    rw [e] at ht
    cases ht
  | executed _ hu hp i hd hi =>
    obtain ⟨k, info, rfl⟩ | ⟨rfl, rfl⟩ | hrun := exec_run_cases hi
    · cases ht
    · exact ⟨hp, decode_ok_opcode hd, rfl⟩
    · rw [hrun, hu] at ht
      cases ht

/-- A running machine faults only by raising: in phase A2 on the sampled state, in phase B on the state of A1 and A2. -/
theorem step_faults (hs : s.run = .running) (h : step s = .next t) {r : FaultRecord} (ht : t.run = .faulted r) :
    t = (sample s).faulted .stackOverflow none ∨ t = (interruptPhase s).faulted r.kind r.info := by
  cases step_cases h with
  | stopped hns => exact absurd hs hns
  | entryFault _ hu e => exact .inl (e.trans (interruptPhase_eq_faulted hs hu))
  | fault _ _ k info e =>
    subst e
    obtain rfl := Run.faulted.inj ht
    exact .inr rfl
  | executed _ hu _ i _ hi =>
    obtain ⟨k, info, rfl⟩ := exec_eq_faulted_of_run hu hi ht
    obtain rfl := Run.faulted.inj ht
    exact .inr rfl

end Sys2Proof.Machine

section

open Sys2Proof Sys2Proof.Machine

/-- Settles O40, by the two ways a step leaves Running. -/
theorem haltedAndFaultedAreAbsorbing : Obligations.HaltedAndFaultedAreAbsorbing := by
  refine ⟨fun s => step_of_stopped, fun s t hs h ht => ?_, fun s t r hs h ht => step_faults hs h ht⟩
  obtain ⟨hp, hread, rfl⟩ := step_halts hs h ht
  exact ⟨hp, hread, rfl⟩

end

/-! ## FL through a step (10_state.md R18) -/

namespace Sys2Proof.Machine

/-- With no line both pending and enabled phase A2 finds none to take (60_exceptions.md R172). -/
theorem lowestEligible_eq_none {mask status : Byte} (h : mask &&& status = 0) :
    lowestEligible mask status = none := by
  have hbit (i : Line) : eligible mask status i = false := by
    rw [eligible, ← BitVec.getLsbD_and, h]
    exact BitVec.getLsbD_zero
  simp [lowestEligible, hbit]

theorem interruptPhase_eq_sample {s : State} (h : (sample s).x .im &&& (sample s).x .is = 0) :
    interruptPhase s = sample s := by
  rw [interruptPhase, arbitrate, lowestEligible_eq_none h]

theorem opc_mem_of_mnemonic_mem_cmp_iret {m : Mnemonic} (h : m ∈ [Mnemonic.cmp, .iret]) :
    opc m ∈ [(0xA7 : Byte), 0x13] := List.mem_map_of_mem (f := opc) h

/-- Outside an entry, FL changes only where phase B runs a CMP or an IRET. -/
theorem step_fl {s t : State} (h : step s = .next t) (hline : (sample s).x .im &&& (sample s).x .is = 0)
    (hop : (interruptPhase s).mem.read (interruptPhase s).pc ∉ [(0xA7 : Byte), 0x13]) : t.fl = s.fl := by
  have hphase : (interruptPhase s).fl = s.fl := by rw [interruptPhase_eq_sample hline, sample_fl]
  cases step_cases h with
  | stopped _ ht => rw [ht]
  | entryFault _ _ ht => rw [ht, hphase]
  | fault _ _ k info ht => rw [ht, State.faulted_fl, hphase]
  | executed _ _ _ i hd hi =>
    rw [decode_ok_opcode hd] at hop
    exact (exec_fl hi (mt opc_mem_of_mnemonic_mem_cmp_iret hop)).trans hphase

end Sys2Proof.Machine

section

open Sys2Proof Sys2Proof.Machine

/-- Settles O44: with no line eligible and another opcode at pc, FL is kept. -/
theorem flagsChangeOnlyByCmpIretOrEntry : Obligations.FlagsChangeOnlyByCmpIretOrEntry := by
  intro s t h hfl
  by_contra hno
  obtain ⟨hline, hop⟩ := not_or.mp hno
  exact hfl (step_fl h (not_not.mp hline) hop)

end

/-! ## OUT through a step (10_state.md R21) -/

namespace Sys2Proof.Machine

@[simp] theorem interruptPhase_out (s : State) : (interruptPhase s).out = s.out := by
  obtain e | e | ⟨i, hsp, e⟩ := interruptPhase_cases s <;> rw [e]
  · rfl
  · rfl
  · rw [enterInterrupt_of_ge hsp, sample_out]

/-- Every step leaves OUT alone or is a PRN that appends its register. -/
theorem step_out_cases {s t : State} (h : step s = .next t) :
    t.out = s.out ∨
    ∃ a : Reg, (interruptPhase s).mem.read (interruptPhase s).pc = 0x47 ∧
      (interruptPhase s).mem.read ((interruptPhase s).pc + 1) = a.byte ∧
      t.out = s.out ++ [(interruptPhase s).x a] := by
  cases step_cases h with
  | stopped _ ht => exact .inl (by rw [ht])
  | entryFault _ _ ht => exact .inl (by rw [ht, interruptPhase_out])
  | fault _ _ k info ht => exact .inl (by rw [ht, State.faulted_out, interruptPhase_out])
  | executed _ _ _ i hd hi =>
    rw [← interruptPhase_out s]
    obtain e | ⟨a, rfl, e⟩ := exec_out_cases hi
    · exact .inl e
    · exact .inr ⟨a, decode_ok_opcode hd, decode_ok_prn hd, e⟩

theorem exec_prn {a : Reg} {s : State} (hp : s.pc.toNat ≤ 253) :
    exec (.prn a.byte) s = .next ((s.emit (s.x a)).setPc (s.pc + 2)) := by
  rw [exec, execPrn, withReg_byte]
  exact sequential_of_lt (by omega) _

/-- A step that reaches phase B at the bytes of PRN appends its register. -/
theorem step_prn {s : State} {a : Reg} (hs : s.run = .running) (hu : (interruptPhase s).run = .running)
    (hp : (interruptPhase s).pc.toNat ≤ 253)
    (hir : (interruptPhase s).mem.read (interruptPhase s).pc = 0x47)
    (hopa : (interruptPhase s).mem.read ((interruptPhase s).pc + 1) = a.byte) :
    step s = .next (((interruptPhase s).emit ((interruptPhase s).x a)).setPc ((interruptPhase s).pc + 2)) := by
  rw [step_eq_executePhase hs hu]
  simp only [executePhase, fetch_of_le hp, hir, hopa, decode_prn]
  exact exec_prn hp

/-! ### Nothing reads OUT: a step commutes with putting bytes before those of OUT -/

/-- The state with bytes put before those of OUT. -/
def State.prependOut (p : List Byte) (s : State) : State := { s with out := p ++ s.out }

/-- The same of an outcome. -/
def prependOutNext (p : List Byte) : Result → Result
  | .next s => .next (s.prependOut p)
  | .fault r => .fault r
  | .refused r => .refused r

section

variable (p : List Byte) (s : State)

@[simp] theorem State.prependOut_pc : (s.prependOut p).pc = s.pc := rfl
@[simp] theorem State.prependOut_run : (s.prependOut p).run = s.run := rfl
@[simp] theorem State.prependOut_x (r : Reg) : (s.prependOut p).x r = s.x r := rfl
@[simp] theorem fetch_prependOut : fetch (s.prependOut p) = fetch s := rfl

theorem withReg_prependOut (ra : Byte) {k k' : Reg → Result} (hk : ∀ a, k' a = prependOutNext p (k a)) :
    withReg ra (s.prependOut p) k' = prependOutNext p (withReg ra s k) := by
  obtain rfl : k' = fun a => prependOutNext p (k a) := funext hk
  unfold withReg
  split <;> rfl

theorem withRegs_prependOut (ra rb : Byte) {k k' : Reg → Reg → Result}
    (hk : ∀ a b, k' a b = prependOutNext p (k a b)) :
    withRegs ra rb (s.prependOut p) k' = prependOutNext p (withRegs ra rb s k) :=
  withReg_prependOut p s ra fun a => withReg_prependOut p s rb (hk a)

theorem withNextPc_prependOut (n : Nat) {k k' : Byte → Result} (hk : ∀ a, k' a = prependOutNext p (k a)) :
    withNextPc n (s.prependOut p) k' = prependOutNext p (withNextPc n s k) := by
  obtain rfl : k' = fun a => prependOutNext p (k a) := funext hk
  unfold withNextPc
  rw [State.prependOut_pc]
  split <;> rfl

theorem sequential_prependOut (n : Nat) {effect : State → State}
    (he : effect (s.prependOut p) = (effect s).prependOut p) :
    sequential n (s.prependOut p) effect = prependOutNext p (sequential n s effect) :=
  withNextPc_prependOut p s n fun _ => by rw [he]; rfl

theorem withStackRoom_prependOut {k k' : Result} (hk : k' = prependOutNext p k) :
    withStackRoom (s.prependOut p) k' = prependOutNext p (withStackRoom s k) := by
  subst hk
  unfold withStackRoom
  rw [State.prependOut_x]
  split <;> rfl

theorem jumpWhen_prependOut (taken : Bool) (ra : Byte) :
    jumpWhen taken ra (s.prependOut p) = prependOutNext p (jumpWhen taken ra s) :=
  withReg_prependOut p s ra fun _ => by
    cases taken
    · exact sequential_prependOut p s 1 rfl
    · rfl

theorem emit_prependOut (v : Byte) : (s.prependOut p).emit v = (s.emit v).prependOut p := by
  simp [State.emit, State.prependOut]

theorem returnFromInterrupt_prependOut :
    returnFromInterrupt (s.prependOut p) = (returnFromInterrupt s).prependOut p := by
  rw [returnFromInterrupt_closed, returnFromInterrupt_closed]
  rfl

theorem exec_prependOut (i : Instr) : exec i (s.prependOut p) = prependOutNext p (exec i s) := by
  cases i with
  | nop => exact sequential_prependOut p s 0 rfl
  | hlt | ret => rfl
  | iret => exact congrArg Host.Outcome.next (returnFromInterrupt_prependOut p s)
  | push ra | call ra =>
    exact withReg_prependOut p s ra fun _ => withNextPc_prependOut p s 1 fun _ => withStackRoom_prependOut p s rfl
  | prn ra => exact withReg_prependOut p s ra fun _ => sequential_prependOut p s 1 (emit_prependOut p s _)
  | pop ra => exact withReg_prependOut p s ra fun _ => sequential_prependOut p s 1 rfl
  | ldi ra imm => exact withReg_prependOut p s ra fun _ => sequential_prependOut p s 2 rfl
  | jmp ra | jeq ra | jne ra | jlt ra => exact jumpWhen_prependOut p s _ ra
  | st ra rb | add ra rb | mul ra rb | cmp ra rb =>
    exact withRegs_prependOut p s ra rb fun _ _ => sequential_prependOut p s 2 rfl

theorem enterInterrupt_prependOut (i : Line) :
    enterInterrupt i (s.prependOut p) = (enterInterrupt i s).prependOut p := by
  by_cases h : (s.x .sp).toNat < 9
  · rw [enterInterrupt_of_lt h, enterInterrupt_of_lt (s := s.prependOut p) h]
    rfl
  · have hge : 9 ≤ (s.x .sp).toNat := Nat.not_lt.mp h
    rw [enterInterrupt_of_ge hge, enterInterrupt_of_ge (s := s.prependOut p) hge]
    rfl

theorem arbitrate_prependOut : arbitrate (s.prependOut p) = (arbitrate s).prependOut p := by
  unfold arbitrate
  rw [State.prependOut_x, State.prependOut_x]
  split
  · rfl
  · exact enterInterrupt_prependOut p s _

theorem interruptPhase_prependOut : interruptPhase (s.prependOut p) = (interruptPhase s).prependOut p :=
  arbitrate_prependOut p (sample s)

theorem executePhase_prependOut : executePhase (s.prependOut p) = prependOutNext p (executePhase s) := by
  unfold executePhase
  rw [fetch_prependOut]
  split
  · rfl
  · split
    · rfl
    · rfl
    · exact exec_prependOut p s _

theorem performCycle_prependOut : performCycle (s.prependOut p) = prependOutNext p (performCycle s) := by
  simp only [performCycle, interruptPhase_prependOut, State.prependOut_run]
  split
  · exact executePhase_prependOut p _
  · rfl

theorem step_prependOut : step (s.prependOut p) = prependOutNext p (step s) := by
  unfold step
  rw [State.prependOut_run]
  split
  · exact performCycle_prependOut p s
  · rfl

end

/-- Every state is the one with an empty OUT, its bytes put back. -/
theorem State.eq_prependOut (s : State) (out : List Byte) :
    { s with out := out } = State.prependOut out { s with out := [] } := by simp [State.prependOut]

theorem prependOutNext_eq_next {p : List Byte} {o : Result} {t : State} (h : prependOutNext p o = .next t) :
    ∃ t₀, o = .next t₀ ∧ t = t₀.prependOut p := by
  cases o <;> cases h
  exact ⟨_, rfl, rfl⟩

/-- With another OUT a step appends the same bytes and ends in the same state but for OUT. -/
theorem step_withOut {s t : State} (out : List Byte) (h : step s = .next t) :
    ∃ more : List Byte, t.out = s.out ++ more ∧
      step { s with out := out } = .next { t with out := out ++ more } := by
  have hblank : prependOutNext s.out (step { s with out := [] }) = .next t := by
    rw [← step_prependOut, ← State.eq_prependOut]
    exact h
  obtain ⟨t₀, ht₀, rfl⟩ := prependOutNext_eq_next hblank
  refine ⟨t₀.out, rfl, ?_⟩
  rw [State.eq_prependOut s out, step_prependOut, ht₀]
  rfl

end Sys2Proof.Machine

section

open Sys2Proof Sys2Proof.Machine

/-- Settles O43: PRN's step, the two ways of OUT through a step, and that a step commutes with bytes before OUT's. -/
theorem outputGrowsOnlyByPrn : Obligations.OutputGrowsOnlyByPrn := by
  refine ⟨rfl, fun s a hs hu hp hir hopa => ⟨_, step_prn hs hu hp hir hopa, ?_⟩, fun s t => step_out_cases,
    fun s t out => step_withOut out⟩
  simp

end

/-! ## What an instruction stores (20_memory.md R38) -/

namespace Sys2Proof

/-- Only ST, PUSH and CALL have an address in the column "writes" of 20_memory.md R38. -/
theorem Instr.storesTo_eq_nil {i : Instr} (h : i.mnemonic ∉ [Mnemonic.st, .push, .call]) (s : Machine.State) :
    i.storesTo s = [] := by
  cases i
  case st | push | call => exact absurd (by simp [Instr.mnemonic]) h
  all_goals rfl

@[simp] theorem Instr.storesTo_st (a : Reg) (rb : Byte) (s : Machine.State) :
    (Instr.st a.byte rb).storesTo s = [s.x a] := by simp [Instr.storesTo]

theorem opc_mem_of_mnemonic_mem_st_push_call {m : Mnemonic} (h : m ∈ [Mnemonic.st, .push, .call]) :
    opc m ∈ [(0x84 : Byte), 0x45, 0x50] := List.mem_map_of_mem (f := opc) h

end Sys2Proof

namespace Sys2Proof.Machine

variable {i : Instr} {s t : State}

/-- MEM after an instruction: as it was, or with one byte written at the address the instruction stores to. -/
theorem exec_mem_cases (h : exec i s = .next t) :
    t.mem = s.mem ∨ ∃ a v, i.storesTo s = [a] ∧ t.mem = s.mem.write a v := by
  cases exec_cases h <;> subst_vars
  case st a b _ => exact .inr ⟨_, _, Instr.storesTo_st a _ s, rfl⟩
  case push | call => exact .inr ⟨pushAddress s, _, rfl, rfl⟩
  all_goals exact .inl (by simp)

theorem exec_read_of_not_mem_storesTo (h : exec i s = .next t) {a : Byte} (ha : a ∉ i.storesTo s) :
    t.mem.read a = s.mem.read a := by
  obtain e | ⟨b, v, hb, e⟩ := exec_mem_cases h <;> rw [e]
  rw [hb, List.mem_singleton] at ha
  exact Memory.read_write_ne s.mem v ha

theorem exec_mem (h : exec i s = .next t) (hi : i.mnemonic ∉ [Mnemonic.st, .push, .call]) : t.mem = s.mem := by
  obtain e | ⟨b, v, hb, -⟩ := exec_mem_cases h
  · exact e
  · simp [Instr.storesTo_eq_nil hi] at hb

end Sys2Proof.Machine

section

open Sys2Proof Sys2Proof.Machine

/-- Settles O21: exec writes at most one cell, the one of Instr.storesTo. -/
theorem instructionsStoreOnlyWhereTheirRulesSay : Obligations.InstructionsStoreOnlyWhereTheirRulesSay :=
  fun _ _ _ h _ ha => exec_read_of_not_mem_storesTo h ha

/-- Settles O25, by the laws of reading after writing. -/
theorem memoryHoldsTheLastByteWritten : Obligations.MemoryHoldsTheLastByteWritten := by
  intro m a v b hm
  refine ⟨?_, Memory.write_wf hm a v⟩
  split
  · next hba => exact hba ▸ Memory.read_write_same hm b v
  · next hba => exact Memory.read_write_ne m v hba

end

/-! ## Canonical memories are determined by what they read (20_memory.md R30) -/

namespace Sys2Proof.Machine

theorem Memory.wfFrom_cons {lo k : Nat} {v : Byte} {m : Memory} :
    Memory.wfFrom lo ((k, v) :: m) = true ↔
      lo ≤ k ∧ k < 256 ∧ v ≠ Memory.unlisted ∧ Memory.wfFrom (k + 1) m = true := by
  simp only [Memory.wfFrom, Bool.and_eq_true, decide_eq_true_eq, and_assoc]
  rfl

/-- A listed cell reads as its entry. -/
theorem Memory.read_head {k : Nat} (hk : k < 256) (v : Byte) (m : Memory) :
    Memory.read ((k, v) :: m) (BitVec.ofNat 8 k) = v := by
  simp [Memory.read, Nat.mod_eq_of_lt hk]

theorem Memory.read_tail {k : Nat} {a : Byte} (h : k ≠ a.toNat) (v : Byte) (m : Memory) :
    Memory.read ((k, v) :: m) a = m.read a := if_neg h

/-- A canonical memory that lists k differs, at k, from one that lists only addresses above k. -/
theorem Memory.exists_read_ne_of_head {lo k : Nat} {v : Byte} {m n : Memory}
    (hm : Memory.wfFrom lo ((k, v) :: m) = true) (hn : Memory.wfFrom (k + 1) n = true) :
    ∃ a, Memory.read ((k, v) :: m) a ≠ n.read a := by
  obtain ⟨-, hk, hv, -⟩ := Memory.wfFrom_cons.mp hm
  refine ⟨BitVec.ofNat 8 k, ?_⟩
  rwa [Memory.read_head hk, Memory.read_below hn (by simp [Nat.mod_eq_of_lt hk])]

/-- Canonical memories that read alike, with heads at one address, agree in that entry and in what their tails read. -/
theorem Memory.read_alike_of_cons {lo k : Nat} {v w : Byte} {m n : Memory}
    (hm : Memory.wfFrom lo ((k, v) :: m) = true) (hn : Memory.wfFrom lo ((k, w) :: n) = true)
    (h : ∀ a, Memory.read ((k, v) :: m) a = Memory.read ((k, w) :: n) a) : v = w ∧ ∀ a, m.read a = n.read a := by
  obtain ⟨-, hk, -, hm'⟩ := Memory.wfFrom_cons.mp hm
  obtain ⟨-, -, -, hn'⟩ := Memory.wfFrom_cons.mp hn
  constructor
  · simpa only [Memory.read_head hk] using h (BitVec.ofNat 8 k)
  · intro a
    by_cases ha : k = a.toNat
    · rw [Memory.read_below hm' (by omega), Memory.read_below hn' (by omega)]
    · simpa only [Memory.read_tail ha] using h a

theorem Memory.eq_of_read_from {m n : Memory} {lo : Nat} (hm : Memory.wfFrom lo m = true)
    (hn : Memory.wfFrom lo n = true) (h : ∀ a, m.read a = n.read a) : m = n := by
  induction m generalizing n lo with
  | nil =>
    cases n with
    | nil => rfl
    | cons e n =>
      obtain ⟨a, ha⟩ := Memory.exists_read_ne_of_head hn (n := []) rfl
      exact absurd (h a).symm ha
  | cons e m ih =>
    cases n with
    | nil =>
      obtain ⟨a, ha⟩ := Memory.exists_read_ne_of_head hm (n := []) rfl
      exact absurd (h a) ha
    | cons f n =>
      obtain ⟨k, v⟩ := e
      obtain ⟨l, w⟩ := f
      obtain ⟨-, hk, hv, hm'⟩ := Memory.wfFrom_cons.mp hm
      obtain ⟨-, hl, hw, hn'⟩ := Memory.wfFrom_cons.mp hn
      obtain hlt | rfl | hgt := lt_trichotomy k l
      · obtain ⟨a, ha⟩ := Memory.exists_read_ne_of_head hm (Memory.wfFrom_cons.mpr ⟨hlt, hl, hw, hn'⟩)
        exact absurd (h a) ha
      · obtain ⟨rfl, htails⟩ := Memory.read_alike_of_cons hm hn h
        rw [ih hm' hn' htails]
      · obtain ⟨a, ha⟩ := Memory.exists_read_ne_of_head hn (Memory.wfFrom_cons.mpr ⟨hgt, hk, hv, hm'⟩)
        exact absurd (h a).symm ha

end Sys2Proof.Machine

section

open Sys2Proof Sys2Proof.Machine

/-- Settles O26, by induction on the two lists from their lowest possible address up. -/
theorem canonicalMemoriesThatReadAlikeAreEqual : Obligations.CanonicalMemoriesThatReadAlikeAreEqual :=
  fun _ _ => Memory.eq_of_read_from

end

/-! ## A store and the fetch after it (20_memory.md R42) -/

namespace Sys2Proof.Machine

theorem exec_st {a b : Reg} {s : State} (hp : s.pc.toNat < 253) :
    exec (.st a.byte b.byte) s = .next ((s.store (s.x a) (s.x b)).setPc (s.pc + 3)) := by
  rw [exec, execSt, withRegs_byte]
  exact sequential_of_lt (by omega) _

theorem State.read_store_of_eq {s : State} (hm : s.mem.wf = true) {a p : Byte} (v : Byte) (h : a = p) :
    (s.store a v).mem.read p = v := h ▸ Memory.read_write_same hm a v

end Sys2Proof.Machine

section

open Sys2Proof Sys2Proof.Machine

/-- Settles O27: the fetch reads the memory that ST wrote, at a pc whose window still fits. -/
theorem storeIsSeenByTheNextFetch : Obligations.StoreIsSeenByTheNextFetch := by
  intro s t a b hm hp h
  rw [exec_st (by omega)] at h
  cases h
  have hnext : (s.pc + 3).toNat ≤ 253 := by bv_omega
  exact ⟨_, _, _, fetch_of_le hnext, State.read_store_of_eq hm _, State.read_store_of_eq hm _,
    State.read_store_of_eq hm _⟩

end

/-! ## MEM through a step (20_memory.md R38, R44) -/

namespace Sys2Proof.Machine

/-- With no line eligible a step leaves MEM as it was, or runs the instruction decoded at pc on the sampled state. -/
theorem step_mem_cases {s t : State} (h : step s = .next t) (hline : (sample s).x .im &&& (sample s).x .is = 0) :
    t.mem = s.mem ∨
    (s.run = .running ∧ s.pc.toNat ≤ 253 ∧ ∃ i,
      decode (s.mem.read s.pc) (s.mem.read (s.pc + 1)) (s.mem.read (s.pc + 2)) = .ok i ∧
      exec i (sample s) = .next t) := by
  have hphase := interruptPhase_eq_sample hline
  cases step_cases h with
  | stopped _ ht => exact .inl (by rw [ht])
  | entryFault _ _ ht => exact .inl (by rw [ht, hphase, sample_mem])
  | fault _ _ k info ht => exact .inl (by rw [ht, State.faulted_mem, hphase, sample_mem])
  | executed hs _ hp i hd hi =>
    rw [hphase] at hp hd hi
    exact .inr ⟨hs, hp, i, hd, hi⟩

end Sys2Proof.Machine

section

open Sys2Proof Sys2Proof.Machine

/-- Settles O45: a step that changes MEM runs the decoded instruction on the sampled state, and exec's frame does the
rest. -/
theorem memoryChangesOnlyByStPushCallOrEntry : Obligations.MemoryChangesOnlyByStPushCallOrEntry := by
  intro s t h hline
  obtain e | ⟨hs, hp, i, hd, hi⟩ := step_mem_cases h hline
  · exact ⟨fun _ => e, fun _ _ a _ => by rw [e], fun _ => e, fun _ => e⟩
  · refine ⟨fun hop => ?_, fun j hj a ha => ?_, fun hnone => absurd hd (hnone i), fun hstop => ?_⟩
    · rw [decode_ok_opcode hd] at hop
      exact (exec_mem hi (mt opc_mem_of_mnemonic_mem_st_push_call hop)).trans (sample_mem s)
    · obtain rfl : i = j := Except.ok.inj (hd.symm.trans hj)
      exact exec_read_of_not_mem_storesTo hi ha
    · obtain hns | hgt := hstop
      · exact absurd hs hns
      · omega

end

/-! ## Decoder and encoder agree, and what the decoder refuses (30_encoding.md R50 to R57) -/

namespace Sys2Proof

open Machine (opcodeBytes firstOperandIsRegister secondOperandIsRegister)

/-- The opcode bytes of the 17 rows differ, so the table finds each row by its own byte. -/
@[simp] theorem lookupOpcode_opc (m : Mnemonic) : lookupOpcode (opc m) = some m := by cases m <;> rfl

theorem decode_opc_of_no_badRegister {m : Mnemonic} {opa opb : Byte}
    (h : firstBadRegister m.format opa opb = none) : decode (opc m) opa opb = .ok (m.withOperands opa opb) := by
  simp [decode, h]

theorem decode_opc_of_badRegister {m : Mnemonic} {opa opb b : Byte}
    (h : firstBadRegister m.format opa opb = some b) : decode (opc m) opa opb = .error (.registerOutOfRange b) := by
  simp [decode, h]

theorem firstBadRegister_r_eq_none_iff {opa opb : Byte} :
    firstBadRegister .r opa opb = none ↔ isRegByte opa = true :=
  ⟨isRegByte_of_firstBadRegister_r, fun ha => if_pos ha⟩

theorem firstBadRegister_rr_eq_none_iff {opa opb : Byte} :
    firstBadRegister .rr opa opb = none ↔ (isRegByte opa && isRegByte opb) = true := by
  refine ⟨isRegByte_both_of_firstBadRegister_rr, fun h => ?_⟩
  obtain ⟨ha, hb⟩ := Bool.and_eq_true_iff.mp h
  simp [firstBadRegister, ha, hb]

/-- The register check of R125 passes exactly the operand bytes that make the row's instruction well formed. -/
theorem Mnemonic.wf_withOperands_iff (m : Mnemonic) (opa opb : Byte) :
    (m.withOperands opa opb).wf = true ↔ firstBadRegister m.format opa opb = none := by
  refine ⟨fun h => ?_, Mnemonic.wf_withOperands⟩
  cases m
  case nop | hlt | ret | iret => rfl
  case st | add | mul | cmp => exact firstBadRegister_rr_eq_none_iff.mpr h
  all_goals exact firstBadRegister_r_eq_none_iff (opb := opb).mpr h

/-- The operand bytes of an instruction stand behind its opcode byte: its row rebuilds it from them, and reads none of
the tail (R50, R57). -/
theorem Instr.withOperands_encode_append (i : Instr) (tail : List Byte) :
    i.mnemonic.withOperands ((encode i ++ tail).getD 1 0) ((encode i ++ tail).getD 2 0) = i := by
  cases i <;> rfl

theorem decodeBytes_encode_append {i : Instr} (hi : i.wf = true) (tail : List Byte) :
    decodeBytes (encode i ++ tail) = .ok i := by
  have hrow := i.withOperands_encode_append tail
  have hregs := (i.mnemonic.wf_withOperands_iff _ _).mp (hrow.symm ▸ hi)
  calc decodeBytes (encode i ++ tail)
    _ = decode (opc i.mnemonic) ((encode i ++ tail).getD 1 0) ((encode i ++ tail).getD 2 0) := rfl
    _ = .ok i := by rw [decode_opc_of_no_badRegister hregs, hrow]

/-- A row's instruction takes as many bytes of the window as it is long (R52). -/
theorem Mnemonic.encode_withOperands (m : Mnemonic) (opa opb : Byte) :
    encode (m.withOperands opa opb) = [opc m, opa, opb].take (encode (m.withOperands opa opb)).length := by
  cases m <;> rfl

theorem mem_opcodeBytes_iff {ir : Byte} : ir ∈ opcodeBytes ↔ ∃ m : Mnemonic, opc m = ir := by
  constructor
  · intro h
    cases hl : lookupOpcode ir with
    | none => exact absurd h (not_mem_opcodeBytes_of_lookupOpcode hl)
    | some m => exact ⟨m, opc_of_lookupOpcode hl⟩
  · rintro ⟨m, rfl⟩
    cases m <;> decide

theorem decode_of_not_mem_opcodeBytes {ir : Byte} (h : ir ∉ opcodeBytes) (opa opb : Byte) :
    decode ir opa opb = .error (.illegalInstruction ir) := by
  cases hl : lookupOpcode ir with
  | none => simp [decode, hl]
  | some m => exact absurd (mem_opcodeBytes_iff.mpr ⟨m, opc_of_lookupOpcode hl⟩) h

theorem decode_eq_illegalInstruction_iff {ir opa opb : Byte} :
    decode ir opa opb = .error (.illegalInstruction ir) ↔ ir ∉ opcodeBytes :=
  ⟨fun h => (decode_illegalInstruction h).2, fun h => decode_of_not_mem_opcodeBytes h opa opb⟩

theorem opc_mem_firstOperandIsRegister_iff {m : Mnemonic} : opc m ∈ firstOperandIsRegister ↔ m.format ≠ .z := by
  cases m <;> decide

theorem opc_mem_secondOperandIsRegister_iff {m : Mnemonic} : opc m ∈ secondOperandIsRegister ↔ m.format = .rr := by
  cases m <;> decide

theorem firstOperandIsRegister_subset_opcodeBytes : firstOperandIsRegister ⊆ opcodeBytes := by decide

theorem secondOperandIsRegister_subset_opcodeBytes : secondOperandIsRegister ⊆ opcodeBytes := by decide

/-- The two ways the register check of R125 answers a byte, `opa` before `opb`. -/
theorem firstBadRegister_eq_some_iff {f : Format} {opa opb b : Byte} :
    firstBadRegister f opa opb = some b ↔
      (f ≠ .z ∧ 8 ≤ opa.toNat ∧ b = opa) ∨ (f = .rr ∧ opa.toNat < 8 ∧ 8 ≤ opb.toNat ∧ b = opb) := by
  cases f
  case z => simp [firstBadRegister]
  case r | ri =>
    obtain ha | ha := Nat.lt_or_ge opa.toNat 8
    · simp [firstBadRegister, isRegByte, ha, ha.not_ge]
    · simp [firstBadRegister, isRegByte, ha, ha.not_gt, eq_comm]
  case rr =>
    obtain ha | ha := Nat.lt_or_ge opa.toNat 8
    · obtain hb | hb := Nat.lt_or_ge opb.toNat 8
      · simp [firstBadRegister, isRegByte, ha, ha.not_ge, hb, hb.not_ge]
      · simp [firstBadRegister, isRegByte, ha, ha.not_ge, hb, hb.not_gt, eq_comm]
    · simp [firstBadRegister, isRegByte, ha, ha.not_gt, eq_comm]

theorem decode_opc_eq_registerOutOfRange_iff {m : Mnemonic} {opa opb b : Byte} :
    decode (opc m) opa opb = .error (.registerOutOfRange b) ↔ firstBadRegister m.format opa opb = some b := by
  refine ⟨fun h => ?_, decode_opc_of_badRegister⟩
  cases hf : firstBadRegister m.format opa opb with
  | none => cases (decode_opc_of_no_badRegister hf).symm.trans h
  | some c => cases (decode_opc_of_badRegister hf).symm.trans h; rfl

theorem decode_eq_registerOutOfRange_iff {ir opa opb b : Byte} :
    decode ir opa opb = .error (.registerOutOfRange b) ↔
      (ir ∈ firstOperandIsRegister ∧ 8 ≤ opa.toNat ∧ b = opa) ∨
      (ir ∈ secondOperandIsRegister ∧ opa.toNat < 8 ∧ 8 ≤ opb.toNat ∧ b = opb) := by
  by_cases hir : ir ∈ opcodeBytes
  · obtain ⟨m, rfl⟩ := mem_opcodeBytes_iff.mp hir
    rw [decode_opc_eq_registerOutOfRange_iff, firstBadRegister_eq_some_iff, opc_mem_firstOperandIsRegister_iff,
      opc_mem_secondOperandIsRegister_iff]
  · have hfirst := mt (@firstOperandIsRegister_subset_opcodeBytes ir) hir
    have hsecond := mt (@secondOperandIsRegister_subset_opcodeBytes ir) hir
    simp [decode_of_not_mem_opcodeBytes hir, hfirst, hsecond]

end Sys2Proof

section

open Sys2Proof Sys2Proof.Machine

/-- Settles O1: a row rebuilds its instruction from the encoded bytes, and the register check passes it because it is
well formed. -/
theorem decodeOfEncodeIsTheInstruction : Obligations.DecodeOfEncodeIsTheInstruction :=
  fun _ tail hi => decodeBytes_encode_append hi tail

/-- Settles O2: a decoded instruction is its row's with the fetched bytes, and that row's encoding begins the window. -/
theorem decodedInstructionIsWellFormedAndEncodesTheWindow :
    Obligations.DecodedInstructionIsWellFormedAndEncodesTheWindow := by
  intro ir opa opb i h
  obtain ⟨m, rfl, hregs, rfl⟩ := decode_ok h
  exact ⟨Mnemonic.wf_withOperands hregs, m.encode_withOperands opa opb⟩

/-- Settles O3: the byte is in the table, where only the register check refuses, or it is not, where the table does. -/
theorem decoderRefusesExactlyIllegalOpcodesAndBadRegisters :
    Obligations.DecoderRefusesExactlyIllegalOpcodesAndBadRegisters :=
  fun _ _ _ => ⟨decode_eq_illegalInstruction_iff, fun _ => decode_eq_registerOutOfRange_iff⟩

/-- Settles O4: each word is the encoding of its instruction followed by the unused bytes of the window. -/
theorem sampleWordsDecode : Obligations.SampleWordsDecode :=
  ⟨decodeBytes_encode_append (i := .ldi 0 8) rfl [],
   decodeBytes_encode_append (i := .add 0 1) rfl [],
   decodeBytes_encode_append (i := .prn 0) rfl [0b00000001],
   decodeBytes_encode_append (i := .iret) rfl [0b11111111, 0b11111111],
   decodeBytes_encode_append (i := .jlt 2) rfl [0b11111111]⟩

end

/-! ## The ALU block and ADD, MUL, CMP, which run it (40_alu.md R70 to R83) -/

namespace Sys2Proof.Machine

/-! ### The six operations -/

@[simp] theorem aluAdd_toNat (a b : Byte) : (aluAdd a b).toNat = (a.toNat + b.toNat) % 256 := BitVec.toNat_ofNat _ 8

@[simp] theorem aluMultiply_toNat (a b : Byte) : (aluMultiply a b).toNat = (a.toNat * b.toNat) % 256 :=
  BitVec.toNat_ofNat _ 8

/-- Subtract: the difference mod 256 is itself where it is not negative, and 256 more where it is (R72). -/
theorem alu_subtract (a b : Byte) :
    ∃ v, alu .subtract a b = .byte v ∧
      v.toNat = if b.toNat ≤ a.toNat then a.toNat - b.toNat else a.toNat + 256 - b.toNat := by
  refine ⟨_, rfl, ?_⟩
  rw [BitVec.toNat_ofInt]
  have ha := a.isLt
  have hb := b.isLt
  split <;> omega

theorem alu_divide_and_modulo_of_eq_zero (a : Byte) {b : Byte} (h : b = 0) :
    alu .divide a b = .divisionByZero ∧ alu .modulo a b = .divisionByZero := ⟨if_pos h, if_pos h⟩

/-- Divide and Modulo: neither quotient nor remainder exceeds the dividend, so both are bytes as they are (R74, R75). -/
theorem alu_divide_and_modulo_of_ne_zero (a : Byte) {b : Byte} (hb : b ≠ 0) :
    ∃ q m, alu .divide a b = .byte q ∧ alu .modulo a b = .byte m ∧
      a.toNat = q.toNat * b.toNat + m.toNat ∧ m.toNat < b.toNat := by
  have hpos : 0 < b.toNat := Nat.pos_of_ne_zero fun h => hb (BitVec.eq_of_toNat_eq h)
  have hq : (BitVec.ofNat 8 (a.toNat / b.toNat)).toNat = a.toNat / b.toNat :=
    Nat.mod_eq_of_lt ((Nat.div_le_self _ _).trans_lt a.isLt)
  have hm : (BitVec.ofNat 8 (a.toNat % b.toNat)).toNat = a.toNat % b.toNat :=
    Nat.mod_eq_of_lt ((Nat.mod_le _ _).trans_lt a.isLt)
  refine ⟨_, _, if_neg hb, if_neg hb, ?_, ?_⟩
  · rw [hq, hm, Nat.div_add_mod']
  · rw [hm]
    exact Nat.mod_lt _ hpos

theorem compareFlags_of_eq {a b : Byte} (h : a = b) : compareFlags a b = 0b001 := if_pos h

theorem compareFlags_of_gt {a b : Byte} (h : b.toNat < a.toNat) : compareFlags a b = 0b010 := by
  have hne : a ≠ b := fun e => h.ne (congrArg BitVec.toNat e.symm)
  rw [compareFlags, if_neg hne, if_pos h]

theorem compareFlags_of_lt {a b : Byte} (h : a.toNat < b.toNat) : compareFlags a b = 0b100 := by
  have hne : a ≠ b := fun e => h.ne (congrArg BitVec.toNat e)
  rw [compareFlags, if_neg hne, if_neg h.not_gt]

theorem alu_compare {a b : Byte} {f : FlagBits} (h : compareFlags a b = f) : alu .compare a b = .flags f :=
  congrArg AluResult.flags h

/-! ### Running the ALU on two registers -/

variable {op : AluOp} {s : State}

theorem aluInstruction_of_first_ge {ra : Byte} (rb : Byte) (h : 8 ≤ ra.toNat) :
    aluInstruction op ra rb s = .next (s.stoppedBy .registerOutOfRange (some ra.toNat)) :=
  withRegs_of_first_ge rb h s _

theorem aluInstruction_of_second_ge {ra rb : Byte} (ha : ra.toNat < 8) (h : 8 ≤ rb.toNat) :
    aluInstruction op ra rb s = .next (s.stoppedBy .registerOutOfRange (some rb.toNat)) :=
  withRegs_of_second_ge ha h s _

theorem aluInstruction_of_byte {a b : Reg} {v : Byte} (h : alu op (s.x a) (s.x b) = .byte v) :
    aluInstruction op a.byte b.byte s = sequential 2 s fun s => s.setX a v := by
  simp [aluInstruction, h]

theorem aluInstruction_of_flags {a b : Reg} {f : FlagBits} (h : alu op (s.x a) (s.x b) = .flags f) :
    aluInstruction op a.byte b.byte s = sequential 2 s fun s => s.setFl f := by
  simp [aluInstruction, h]

theorem aluInstruction_of_divisionByZero {a b : Reg} (h : alu op (s.x a) (s.x b) = .divisionByZero) :
    aluInstruction op a.byte b.byte s = .next (s.stoppedBy .divisionByZero none) := by
  simp [aluInstruction, h, raise, State.faulted_eq_stoppedBy]

/-! ### The advance of a 3-byte instruction (43_dispatch_loop.md R126) -/

theorem sequential_two_at_253 (h : s.pc = 253) (effect : State → State) :
    sequential 2 s effect = .next (s.stoppedBy .addressOutOfRange (some 256)) :=
  sequential_of_ge (by simp [h]) effect

theorem sequential_two_of_lt (h : s.pc.toNat < 253) (effect : State → State) :
    sequential 2 s effect = .next ((effect s).setPc (s.pc + 3)) :=
  sequential_of_lt (by omega) effect

theorem pc_add_three_toNat (h : s.pc.toNat < 253) : (s.pc + 3).toNat = s.pc.toNat + 3 := by bv_omega

theorem sameRegsBut_setX (s : State) (a : Reg) (v : Byte) : SameRegsBut [a] s (s.setX a v) :=
  fun _ hr => s.x_setX_ne v (List.ne_of_not_mem_cons hr)

/-! ### ADD and MUL are one rule for two operations -/

/-- What ADD and MUL have in common: each encodes its opcode byte and two operands, and writes the byte the ALU answers
to its operation, `f` mod 256. -/
theorem aluOp_of_add_or_mul {ra rb opcode : Byte} {i : Instr} {f : Nat → Nat → Nat}
    (h : (i, opcode, f) ∈ [(Instr.add ra rb, (0xA0 : Byte), Nat.add), (Instr.mul ra rb, (0xA2 : Byte), Nat.mul)]) :
    encode i = [opcode, ra, rb] ∧ ∃ op, (∀ s, exec i s = aluInstruction op ra rb s) ∧
      ∀ a b, ∃ v, alu op a b = .byte v ∧ v.toNat = f a.toNat b.toNat % 256 := by
  rw [List.mem_pair] at h
  obtain h | h := h <;> cases h
  · exact ⟨rfl, .add, fun _ => rfl, fun a b => ⟨_, rfl, aluAdd_toNat a b⟩⟩
  · exact ⟨rfl, .multiply, fun _ => rfl, fun a b => ⟨_, rfl, aluMultiply_toNat a b⟩⟩

/-! ### CMP -/

theorem exec_cmp (ra rb : Byte) (s : State) : exec (.cmp ra rb) s = aluInstruction .compare ra rb s := rfl

end Sys2Proof.Machine

section

open Sys2Proof Sys2Proof.Machine

/-- Settles O5: each operation's own law, and a zero divisor's answer raised as the fault. -/
theorem aluComputesItsSixOperations : Obligations.AluComputesItsSixOperations := by
  constructor
  · intro a b
    exact ⟨⟨_, rfl, aluAdd_toNat a b⟩, alu_subtract a b, ⟨_, rfl, aluMultiply_toNat a b⟩,
      alu_divide_and_modulo_of_eq_zero a, alu_divide_and_modulo_of_ne_zero a,
      fun h => alu_compare (compareFlags_of_eq h), fun h => alu_compare (compareFlags_of_gt h),
      fun h => alu_compare (compareFlags_of_lt h)⟩
  · intro s a b hb
    obtain ⟨hdivide, hmodulo⟩ := alu_divide_and_modulo_of_eq_zero (s.x a) hb
    exact ⟨aluInstruction_of_divisionByZero hdivide, aluInstruction_of_divisionByZero hmodulo⟩

/-- Settles O6: ADD and MUL run the ALU on an operation that answers a byte, so one argument serves both. -/
theorem addAndMulFollowTheirRules : Obligations.AddAndMulFollowTheirRules := by
  intro s ra rb i opcode f hi
  obtain ⟨hencode, op, hexec, halu⟩ := aluOp_of_add_or_mul hi
  rw [hexec]
  refine ⟨hencode, aluInstruction_of_first_ge rb, aluInstruction_of_second_ge, ?_⟩
  rintro a b rfl rfl
  obtain ⟨v, hv, hval⟩ := halu (s.x a) (s.x b)
  rw [aluInstruction_of_byte hv]
  refine ⟨fun hp => sequential_two_at_253 hp _, fun hp => ⟨_, sequential_two_of_lt hp _, ?_, sameRegsBut_setX s a v,
    pc_add_three_toNat hp, rfl, fun _ _ => rfl, rfl, rfl, rfl, rfl⟩⟩
  simpa using hval

/-- Settles O7: CMP runs Compare and writes FL alone; the other instructions by exec's frame of FL. -/
theorem cmpFollowsItsRule : Obligations.CmpFollowsItsRule := by
  refine ⟨fun s ra rb => ?_, fun _ _ _ => exec_fl⟩
  rw [exec_cmp]
  refine ⟨rfl, aluInstruction_of_first_ge rb, aluInstruction_of_second_ge, ?_⟩
  rintro a b rfl rfl
  rw [aluInstruction_of_flags (alu_compare rfl)]
  exact ⟨fun hp => sequential_two_at_253 hp _, fun hp => ⟨_, sequential_two_of_lt hp _,
    compareFlags_of_eq, compareFlags_of_gt, compareFlags_of_lt,
    fun _ _ => rfl, pc_add_three_toNat hp, fun _ _ => rfl, rfl, rfl, rfl, rfl⟩⟩

end

/-! ## JMP, JEQ, JNE, JLT, and the relation a CMP leaves in FL (41_flags_jumps.md R90 to R96) -/

namespace Sys2Proof.Machine

/-! ### The four jumps are one rule for four conditions -/

variable {s : State} {ra : Byte}

/-- What the four jumps have in common: each encodes its opcode byte and one operand, and jumps where its condition on
FL holds. -/
theorem jumpWhen_of_jump {i : Instr} {opcode : Byte} {taken : Bool}
    (h : (i, opcode, taken) ∈
      [(Instr.jmp ra, (0x54 : Byte), true), (Instr.jeq ra, (0x55 : Byte), s.fl.getLsbD 0),
       (Instr.jne ra, (0x56 : Byte), !s.fl.getLsbD 0), (Instr.jlt ra, (0x58 : Byte), s.fl.getLsbD 2)]) :
    encode i = [opcode, ra] ∧ exec i s = jumpWhen taken ra s := by
  simp only [List.mem_cons, List.not_mem_nil, or_false] at h
  obtain h | h | h | h := h <;> cases h <;> exact ⟨rfl, rfl⟩

theorem jumpWhen_of_ge {taken : Bool} (h : 8 ≤ ra.toNat) :
    jumpWhen taken ra s = .next (s.stoppedBy .registerOutOfRange (some ra.toNat)) := withReg_of_ge h s _

theorem pc_add_two_toNat (h : s.pc.toNat ≤ 253) : (s.pc + 2).toNat = s.pc.toNat + 2 := by bv_omega

/-! ### Where a conditional jump goes -/

/-- Instruction `i` answers a state at `target`, with RUN as it was. -/
def GoesTo (i : Instr) (s : State) (target : Byte) : Prop := ∃ u, exec i s = .next u ∧ u.pc = target ∧ u.run = s.run

theorem goesTo_of_jumpWhen {i : Instr} {taken : Bool} {c : Reg} (hi : exec i s = jumpWhen taken c.byte s)
    (hp : s.pc.toNat ≤ 253) : GoesTo i s (if taken then s.x c else s.pc + 2) :=
  ⟨_, hi.trans (jumpWhen_byte taken c hp), rfl, rfl⟩

/-- The conditional jumps for a value of FL, at every pc that can be fetched. -/
theorem conditionalJumps_goTo {f : FlagBits} (c : Reg) (hf : s.fl = f) (hp : s.pc.toNat ≤ 253) :
    GoesTo (.jeq c.byte) s (if f.getLsbD 0 then s.x c else s.pc + 2) ∧
    GoesTo (.jne c.byte) s (if !f.getLsbD 0 then s.x c else s.pc + 2) ∧
    GoesTo (.jlt c.byte) s (if f.getLsbD 2 then s.x c else s.pc + 2) := by
  subst hf
  exact ⟨goesTo_of_jumpWhen rfl hp, goesTo_of_jumpWhen rfl hp, goesTo_of_jumpWhen rfl hp⟩

/-! ### Right after a CMP -/

/-- The state a CMP leaves. -/
def afterCmp (a b : Reg) (s : State) : State := (s.setFl (compareFlags (s.x a) (s.x b))).setPc (s.pc + 3)

theorem exec_cmp_of_lt (a b : Reg) (hp : s.pc.toNat < 253) :
    exec (.cmp a.byte b.byte) s = .next (afterCmp a b s) :=
  (aluInstruction_of_flags (alu_compare rfl)).trans (sequential_two_of_lt hp _)

/-- The jump stands three bytes on, so its fall-through is five from the CMP. -/
theorem conditionalJumps_afterCmp {f : FlagBits} {a b : Reg} (c : Reg) (hp : s.pc.toNat < 251)
    (hf : compareFlags (s.x a) (s.x b) = f) :
    GoesTo (.jeq c.byte) (afterCmp a b s) (if f.getLsbD 0 then s.x c else s.pc + 5) ∧
    GoesTo (.jne c.byte) (afterCmp a b s) (if !f.getLsbD 0 then s.x c else s.pc + 5) ∧
    GoesTo (.jlt c.byte) (afterCmp a b s) (if f.getLsbD 2 then s.x c else s.pc + 5) := by
  have hpc : (afterCmp a b s).pc.toNat ≤ 253 := by
    have hcmp : (afterCmp a b s).pc.toNat = s.pc.toNat + 3 := pc_add_three_toNat (by omega)
    omega
  have hnext : (afterCmp a b s).pc + 2 = s.pc + 5 := BitVec.add_assoc s.pc 3 2
  rw [← hnext]
  exact conditionalJumps_goTo c hf hpc

end Sys2Proof.Machine

section

open Sys2Proof Sys2Proof.Machine

/-- Settles O11: the four jumps are jumpWhen at their conditions, so one argument serves all four. -/
theorem jumpsFollowTheirRules : Obligations.JumpsFollowTheirRules := by
  intro s ra i opcode taken hi
  obtain ⟨hencode, hexec⟩ := jumpWhen_of_jump hi
  rw [hexec]
  refine ⟨hencode, jumpWhen_of_ge, ?_⟩
  rintro a rfl hp
  refine ⟨_, jumpWhen_byte taken a hp, fun htaken => if_pos htaken, ?_,
    fun _ _ => rfl, rfl, fun _ _ => rfl, rfl, rfl, rfl, rfl⟩
  rintro rfl
  exact pc_add_two_toNat hp

/-- Settles O12: each relation fixes the value of FL after the CMP, and that value each jump's condition. -/
theorem conditionalJumpsFollowTheRelation : Obligations.ConditionalJumpsFollowTheRelation := by
  intro s t a b c
  refine ⟨fun hp hcmp => ?_, fun hp hfl => conditionalJumps_goTo c hfl hp, rfl,
    fun i hsp => by rw [enterInterrupt_of_ge hsp]⟩
  rw [exec_cmp_of_lt a b (by omega)] at hcmp
  cases hcmp
  exact ⟨fun heq => conditionalJumps_afterCmp c hp (compareFlags_of_eq heq),
    fun hgt => conditionalJumps_afterCmp c hp (compareFlags_of_gt hgt),
    fun hlt => conditionalJumps_afterCmp c hp (compareFlags_of_lt hlt)⟩

end

/-! ## PUSH, POP, CALL and RET (42_stack.md R100 to R105) -/

namespace Sys2Proof.Machine

variable {s : State} {a : Reg}

/-! ### The stack primitives -/

theorem State.x_setX (s : State) (r q : Reg) (v : Byte) : (s.setX r v).x q = if q = r then v else s.x q := by
  split
  · next h => rw [h, State.x_setX_same]
  · next h => exact State.x_setX_ne s v h

@[simp] theorem pushWith_x_sp (s : State) (value : State → Byte) : (pushWith s value).x .sp = pushAddress s := rfl

theorem sameRegsBut_pushWith (s : State) (value : State → Byte) : SameRegsBut [.sp] s (pushWith s value) :=
  fun _ hr => pushWith_x_ne s value (List.ne_of_not_mem_cons hr)

theorem sameMemBut_pushWith (s : State) (value : State → Byte) : SameMemBut [pushAddress s] s (pushWith s value) :=
  fun _ hb => Memory.read_write_ne s.mem _ (List.ne_of_not_mem_cons hb)

/-- The cell of the push holds the value, which is read where SP is already decremented. -/
theorem pushWith_read_pushAddress (hm : s.mem.wf = true) (value : State → Byte) :
    (pushWith s value).mem.read (pushAddress s) = value (s.setX .sp (pushAddress s)) :=
  Memory.read_write_same hm _ _

theorem pushByte_read_pushAddress (hm : s.mem.wf = true) (v : Byte) : (pushByte v s).mem.read (pushAddress s) = v :=
  pushWith_read_pushAddress hm fun _ => v

theorem dropTop_x_sp_toNat (s : State) : ((dropTop s).x .sp).toNat = min ((s.x .sp).toNat + 1) 255 :=
  afterPop_toNat (s.x .sp)

/-- A pop undoes the decrement of a push: the clamp cannot be met, as the decremented SP is at most 0xFE. -/
theorem afterPop_pushAddress (h0 : s.x .sp ≠ 0) : afterPop (pushAddress s) = s.x .sp := by
  have hpos : (s.x .sp).toNat ≠ 0 := fun e => h0 (BitVec.eq_of_toNat_eq e)
  apply BitVec.eq_of_toNat_eq
  rw [afterPop_toNat, pushAddress_toNat h0]
  omega

/-! ### The shape PUSH and CALL share: the operand, the next address, the stack's room, then the effect -/

theorem withReg_push_of_noRoom (hp : s.pc.toNat ≤ 253) (h0 : s.x .sp = 0) (after : Reg → Byte → State) :
    (withReg a.byte s fun a => withNextPc 1 s fun n => withStackRoom s (.next (after a n))) =
      .next (s.stoppedBy .stackOverflow none) := by
  rw [withReg_byte, withNextPc_of_lt (by omega)]
  exact if_pos h0

theorem withReg_push_of_room (hp : s.pc.toNat ≤ 253) (h0 : s.x .sp ≠ 0) (after : Reg → Byte → State) :
    (withReg a.byte s fun a => withNextPc 1 s fun n => withStackRoom s (.next (after a n))) =
      .next (after a (s.pc + 2)) := by
  rw [withReg_byte, withNextPc_of_lt (by omega)]
  exact if_neg h0

/-! ### What each instruction answers outside its faults -/

theorem exec_push_of_room (hp : s.pc.toNat ≤ 253) (h0 : s.x .sp ≠ 0) :
    exec (.push a.byte) s = .next ((pushWith s fun s => s.x a).setPc (s.pc + 2)) :=
  withReg_push_of_room hp h0 _

theorem exec_call_of_room (hp : s.pc.toNat ≤ 253) (h0 : s.x .sp ≠ 0) :
    exec (.call a.byte) s = .next ((pushByte (s.pc + 2) s).setPc ((pushByte (s.pc + 2) s).x a)) :=
  withReg_push_of_room hp h0 _

theorem exec_pop (hp : s.pc.toNat ≤ 253) :
    exec (.pop a.byte) s = .next ((dropTop (s.setX a (stackTop s))).setPc (s.pc + 2)) :=
  (withReg_byte a s _).trans (sequential_of_lt (by omega) _)

theorem exec_ret (s : State) : exec .ret s = .next (popPc s) := rfl

end Sys2Proof.Machine

section

open Sys2Proof Sys2Proof.Machine

/-- Settles O13: PUSH is a push of x[ra], read where SP is already decremented. -/
theorem pushFollowsItsRule : Obligations.PushFollowsItsRule := by
  intro s ra hm
  refine ⟨rfl, fun h => withReg_of_ge h s _, ?_⟩
  rintro a rfl hp
  refine ⟨fun h0 => withReg_push_of_noRoom hp h0 _, fun h0 => ⟨_, exec_push_of_room hp h0, pushAddress_toNat h0,
    sameRegsBut_pushWith s fun s => s.x a, ?_, rfl, sameMemBut_pushWith s fun s => s.x a,
    pc_add_two_toNat hp, rfl, rfl, rfl, rfl, rfl⟩⟩
  exact (pushWith_read_pushAddress hm fun s => s.x a).trans (s.x_setX .sp a _)

/-- Settles O14: POP writes the register before it moves SP, so POP R7 moves the popped byte; after a PUSH the byte on
top is the one pushed, and the pop undoes the decrement. -/
theorem popFollowsItsRule : Obligations.PopFollowsItsRule := by
  constructor
  · intro s ra
    refine ⟨rfl, fun h => withReg_of_ge h s _, ?_⟩
    rintro a rfl hp
    refine ⟨_, exec_pop hp, fun ha => ⟨?_, ?_⟩, ?_, fun r hr => ?_, fun _ _ => rfl, pc_add_two_toNat hp,
      rfl, rfl, rfl, rfl, rfl⟩
    · simp [ha, stackTop]
    · simp [dropTop_x_sp_toNat, ha.symm]
    · rintro rfl
      simp [dropTop_x_sp_toNat, stackTop]
    · have hne : r ≠ a ∧ r ≠ .sp := by simpa using hr
      simp [hne]
  · intro s a b hm h0 ha hb hp
    have hpc : (s.pc + 2).toNat = s.pc.toNat + 2 := pc_add_two_toNat (by omega)
    have htop : (pushWith s fun s => s.x a).mem.read (pushAddress s) = s.x a :=
      (pushWith_read_pushAddress hm fun s => s.x a).trans (s.x_setX_ne _ ha)
    refine ⟨_, _, exec_push_of_room (by omega) h0, exec_pop (by rw [State.setPc_pc]; omega), ?_, ?_⟩
    · simpa [hb, stackTop] using htop
    · simpa [dropTop, hb.symm] using afterPop_pushAddress h0

/-- Settles O15: CALL is a push of the next instruction's address, then a jump. -/
theorem callFollowsItsRule : Obligations.CallFollowsItsRule := by
  intro s ra hm
  refine ⟨rfl, fun h => withReg_of_ge h s _, ?_⟩
  rintro a rfl hp
  refine ⟨fun h0 => withReg_push_of_noRoom hp h0 _, fun h0 => ⟨_, exec_call_of_room hp h0, pushAddress_toNat h0,
    sameRegsBut_pushWith s fun _ => s.pc + 2, ?_, rfl, sameMemBut_pushWith s fun _ => s.pc + 2,
    s.x_setX .sp a _, rfl, rfl, rfl, rfl, rfl⟩⟩
  exact (congrArg BitVec.toNat (pushByte_read_pushAddress hm _)).trans (pc_add_two_toNat hp)

/-- Settles O16: RET takes pc from the top of the stack; there CALL has left the address of the next instruction, and
the pop undoes the decrement of CALL. -/
theorem retFollowsItsRule : Obligations.RetFollowsItsRule := by
  constructor
  · exact fun s => ⟨rfl, _, exec_ret s, rfl, dropTop_x_sp_toNat s,
      fun _ hr => popPc_x_ne s (List.ne_of_not_mem_cons hr), fun _ _ => rfl, rfl, rfl, rfl, rfl, rfl⟩
  · intro s t u a hm h0 hp hcall hsp hcell
    rw [exec_call_of_room hp h0] at hcall
    cases hcall
    have htop : stackTop u = s.pc + 2 := hcell.trans (pushByte_read_pushAddress hm _)
    refine ⟨_, exec_ret u, ?_, ?_⟩
    · exact (congrArg BitVec.toNat htop).trans (pc_add_two_toNat hp)
    · exact (congrArg afterPop hsp).trans (afterPop_pushAddress h0)

end

/-! ## NOP, LDI, PRN, ST and HLT (43_dispatch_loop.md R130 to R134) -/

namespace Sys2Proof.Machine

variable {s : State}

theorem exec_nop (hp : s.pc.toNat ≤ 253) : exec .nop s = .next (s.setPc (s.pc + 1)) :=
  sequential_of_lt (by omega) id

theorem exec_hlt (s : State) : exec .hlt s = .next (s.setRun .halted) := rfl

theorem exec_ldi (a : Reg) (imm : Byte) (s : State) :
    exec (.ldi a.byte imm) s = sequential 2 s fun s => s.setX a imm := withReg_byte a s _

theorem exec_st_byte (a b : Reg) (s : State) :
    exec (.st a.byte b.byte) s = sequential 2 s fun s => s.store (s.x a) (s.x b) := withRegs_byte a b s _

theorem pc_add_one_toNat (h : s.pc.toNat ≤ 253) : (s.pc + 1).toNat = s.pc.toNat + 1 := by bv_omega

theorem sameMemBut_store (s : State) (a v : Byte) : SameMemBut [a] s (s.store a v) :=
  fun _ hb => Memory.read_write_ne s.mem v (List.ne_of_not_mem_cons hb)

end Sys2Proof.Machine

section

open Sys2Proof Sys2Proof.Machine

/-- Settles O17: NOP is the sequential advance alone. -/
theorem nopFollowsItsRule : Obligations.NopFollowsItsRule :=
  fun _ => ⟨rfl, fun hp => ⟨_, exec_nop hp, pc_add_one_toNat hp, fun _ _ => rfl, rfl, fun _ _ => rfl, rfl,
    rfl, rfl, rfl⟩⟩

/-- Settles O8: LDI writes its register and advances by three. -/
theorem ldiFollowsItsRule : Obligations.LdiFollowsItsRule := by
  intro s ra imm
  refine ⟨rfl, fun h => withReg_of_ge h s _, ?_⟩
  rintro a rfl
  rw [exec_ldi]
  exact ⟨fun hp => sequential_two_at_253 hp _, fun hp => ⟨_, sequential_two_of_lt hp _, s.x_setX_same a imm,
    sameRegsBut_setX s a imm, pc_add_three_toNat hp, rfl, fun _ _ => rfl, rfl, rfl, rfl, rfl⟩⟩

/-- Settles O9: PRN appends its register to OUT and advances by two, which no fetchable pc forbids. -/
theorem prnFollowsItsRule : Obligations.PrnFollowsItsRule := by
  intro s ra
  refine ⟨rfl, fun h => withReg_of_ge h s _, ?_⟩
  rintro a rfl hp
  exact ⟨_, exec_prn hp, rfl, pc_add_two_toNat hp, fun _ _ => rfl, rfl, fun _ _ => rfl, rfl, rfl, rfl⟩

/-- Settles O10: ST stores one byte, which the canonical memory reads back, and advances by three. -/
theorem stFollowsItsRule : Obligations.StFollowsItsRule := by
  intro s ra rb hm
  refine ⟨rfl, fun h => withRegs_of_first_ge rb h s _, fun ha h => withRegs_of_second_ge ha h s _, ?_⟩
  rintro a b rfl rfl
  rw [exec_st_byte]
  exact ⟨fun hp => sequential_two_at_253 hp _, fun hp => ⟨_, sequential_two_of_lt hp _,
    State.read_store_of_eq hm _ rfl, sameMemBut_store s _ _, fun _ _ => rfl, pc_add_three_toNat hp,
    rfl, rfl, rfl, rfl, rfl⟩⟩

end

/-! ## The sequential instructions advance by their width (43_dispatch_loop.md R126) -/

namespace Sys2Proof

theorem Reg.exists_byte_of_isRegByte {b : Byte} (h : isRegByte b = true) : ∃ r : Reg, b = r.byte :=
  Reg.exists_byte (of_decide_eq_true h)

theorem Reg.exists_bytes_of_isRegByte {b c : Byte} (h : (isRegByte b && isRegByte c) = true) :
    ∃ r q : Reg, b = r.byte ∧ c = q.byte := by
  obtain ⟨hb, hc⟩ := Bool.and_eq_true_iff.mp h
  obtain ⟨r, hr⟩ := Reg.exists_byte_of_isRegByte hb
  obtain ⟨q, hq⟩ := Reg.exists_byte_of_isRegByte hc
  exact ⟨r, q, hr, hq⟩

theorem length_encode (i : Instr) : (encode i).length = 1 + i.operands.length := Nat.add_comm _ 1

theorem Instr.eq_push_of_mnemonic {i : Instr} (h : i.mnemonic = .push) : ∃ ra, i = .push ra := by
  cases i <;> cases h
  exact ⟨_, rfl⟩

end Sys2Proof

namespace Sys2Proof.Machine

variable {i : Instr} {s : State}

/-- The rows whose rule ends with the sequential advance of R126. -/
def sequentialRows : List Mnemonic := [.nop, .ldi, .prn, .add, .mul, .cmp, .push, .pop, .st]

/-- Every sequential instruction but PUSH is an effect that keeps RUN, followed by the advance past its operands. -/
theorem exec_eq_sequential (hw : i.wf = true) (hi : i.mnemonic ∈ sequentialRows) (hpush : i.mnemonic ≠ .push)
    (s : State) :
    ∃ effect : State → State, exec i s = sequential i.operands.length s effect ∧ (effect s).run = s.run := by
  cases i with
  | nop => exact ⟨id, rfl, rfl⟩
  | ldi | prn | pop =>
    obtain ⟨a, rfl⟩ := Reg.exists_byte_of_isRegByte hw
    exact ⟨_, withReg_byte a s _, rfl⟩
  | st =>
    obtain ⟨a, b, rfl, rfl⟩ := Reg.exists_bytes_of_isRegByte hw
    exact ⟨_, withRegs_byte a b s _, rfl⟩
  | add =>
    obtain ⟨a, b, rfl, rfl⟩ := Reg.exists_bytes_of_isRegByte hw
    exact ⟨_, aluInstruction_of_byte (op := .add) rfl, rfl⟩
  | mul =>
    obtain ⟨a, b, rfl, rfl⟩ := Reg.exists_bytes_of_isRegByte hw
    exact ⟨_, aluInstruction_of_byte (op := .multiply) rfl, rfl⟩
  | cmp =>
    obtain ⟨a, b, rfl, rfl⟩ := Reg.exists_bytes_of_isRegByte hw
    exact ⟨_, aluInstruction_of_flags (op := .compare) rfl, rfl⟩
  | push => exact absurd rfl hpush
  | _ => simp [Instr.mnemonic, sequentialRows] at hi

theorem pc_add_ofNat_toNat {n : Nat} (h : s.pc.toNat + n < 256) :
    (s.pc + BitVec.ofNat 8 n).toNat = s.pc.toNat + n := by
  rw [BitVec.toNat_add, BitVec.toNat_ofNat]
  omega

/-- A sequential instruction whose successor is an address goes there, with RUN as it was; PUSH needs room too. -/
theorem exec_of_fits (hw : i.wf = true) (hi : i.mnemonic ∈ sequentialRows) (hp : s.pc.toNat ≤ 253)
    (hfit : s.pc.toNat + (encode i).length < 256) (hroom : i.mnemonic = .push → s.x .sp ≠ 0) :
    ∃ t, exec i s = .next t ∧ t.pc.toNat = s.pc.toNat + (encode i).length ∧ t.run = s.run := by
  by_cases hpush : i.mnemonic = .push
  · obtain ⟨ra, rfl⟩ := Instr.eq_push_of_mnemonic hpush
    obtain ⟨a, rfl⟩ := Reg.exists_byte_of_isRegByte hw
    exact ⟨_, exec_push_of_room hp (hroom rfl), pc_add_two_toNat hp, rfl⟩
  · obtain ⟨effect, he, hrun⟩ := exec_eq_sequential hw hi hpush s
    rw [length_encode] at hfit ⊢
    exact ⟨_, he.trans (sequential_of_lt (by omega) effect), pc_add_ofNat_toNat hfit, hrun⟩

/-- Where the successor is no address a sequential instruction faults; PUSH, two bytes long, always has one where it can
be fetched. -/
theorem exec_of_not_fits (hw : i.wf = true) (hi : i.mnemonic ∈ sequentialRows) (hp : s.pc.toNat ≤ 253)
    (hfit : 256 ≤ s.pc.toNat + (encode i).length) :
    exec i s = .next (s.stoppedBy .addressOutOfRange (some 256)) := by
  by_cases hpush : i.mnemonic = .push
  · obtain ⟨ra, rfl⟩ := Instr.eq_push_of_mnemonic hpush
    have hlen : (encode (.push ra)).length = 2 := rfl
    omega
  · obtain ⟨effect, he, -⟩ := exec_eq_sequential hw hi hpush s
    rw [length_encode] at hfit
    exact he.trans (sequential_of_ge (by omega) effect)

end Sys2Proof.Machine

section

open Sys2Proof Sys2Proof.Machine

/-- Settles O23: PUSH always fits and needs room on the stack; the others are an effect before the advance. -/
theorem sequentialInstructionsAdvanceByTheirWidth : Obligations.SequentialInstructionsAdvanceByTheirWidth :=
  fun _ _ hw hp hi => ⟨fun h => exec_of_not_fits hw hi hp h.ge, exec_of_fits hw hi hp⟩

end

/-! ## Every step answers a next state, and what run makes of that (43_dispatch_loop.md R140, R141, R143) -/

namespace Sys2Proof.Machine

/-- The outcome is a next state. -/
def Answers (o : Result) : Prop := ∃ t, o = .next t

variable {s : State}

theorem answers_next (t : State) : Answers (.next t) := ⟨t, rfl⟩

theorem withReg_answers (ra : Byte) {k : Reg → Result} (hk : ∀ a, Answers (k a)) : Answers (withReg ra s k) := by
  obtain ⟨a, -, e⟩ | ⟨-, e⟩ := withReg_cases ra s k <;> rw [e]
  · exact hk a
  · exact answers_next _

theorem withRegs_answers (ra rb : Byte) {k : Reg → Reg → Result} (hk : ∀ a b, Answers (k a b)) :
    Answers (withRegs ra rb s k) := withReg_answers ra fun a => withReg_answers rb (hk a)

theorem withNextPc_answers (n : Nat) {k : Byte → Result} (hk : ∀ p, Answers (k p)) : Answers (withNextPc n s k) := by
  unfold withNextPc
  split
  · exact hk _
  · exact answers_next _

theorem sequential_answers (n : Nat) (effect : State → State) : Answers (sequential n s effect) :=
  withNextPc_answers n fun _ => answers_next _

theorem withStackRoom_answers {k : Result} (hk : Answers k) : Answers (withStackRoom s k) := by
  obtain ⟨-, e⟩ | ⟨-, e⟩ := withStackRoom_cases s k <;> rw [e]
  · exact answers_next _
  · exact hk

theorem jumpWhen_answers (taken : Bool) (ra : Byte) : Answers (jumpWhen taken ra s) :=
  withReg_answers ra fun _ => by
    cases taken
    · exact sequential_answers 1 id
    · exact answers_next _

/-- Every instruction has a meaning, on every state: a fault is a next state too. -/
theorem exec_answers (i : Instr) (s : State) : Answers (exec i s) := by
  cases i with
  | nop => exact sequential_answers 0 id
  | hlt | ret | iret => exact answers_next _
  | push ra | call ra =>
    exact withReg_answers ra fun _ => withNextPc_answers 1 fun _ => withStackRoom_answers (answers_next _)
  | pop ra | prn ra => exact withReg_answers ra fun _ => sequential_answers 1 _
  | ldi ra _ => exact withReg_answers ra fun _ => sequential_answers 2 _
  | jmp ra | jeq ra | jne ra | jlt ra => exact jumpWhen_answers _ ra
  | st ra rb | add ra rb | mul ra rb | cmp ra rb => exact withRegs_answers ra rb fun _ _ => sequential_answers 2 _

theorem executePhase_answers (u : State) : Answers (executePhase u) := by
  unfold executePhase
  split
  · exact answers_next _
  · split
    · exact answers_next _
    · exact answers_next _
    · exact exec_answers _ u

theorem step_answers (s : State) : Answers (step s) := by
  by_cases hs : s.run = .running
  · by_cases hu : (interruptPhase s).run = .running
    · rw [step_eq_executePhase hs hu]
      exact executePhase_answers _
    · rw [step_of_running hs, performCycle_of_entryFault hu]
      exact answers_next _
  · rw [step_of_stopped hs]
    exact answers_next s

theorem run_of_stopped (h : s.run ≠ .running) (k : Nat) : run k s = .next s := by
  cases k with
  | zero => rfl
  | succ k =>
    unfold run
    split
    · contradiction
    · rfl

theorem run_succ (k : Nat) {t : State} (h : step s = .next t) : run (k + 1) s = run k t := by
  by_cases hs : s.run = .running
  · simp [run, hs, h]
  · obtain rfl : s = t := Host.Outcome.next.inj ((step_of_stopped hs).symm.trans h)
    rw [run_of_stopped hs, run_of_stopped hs]

/-- A run of any number of cycles answers, and once it has left Running more cycles answer the same. -/
theorem run_answers_and_stays (k : Nat) (s : State) :
    ∃ t, run k s = .next t ∧ (t.run ≠ .running → ∀ n : Nat, run (k + n) s = .next t) := by
  induction k generalizing s with
  | zero => exact ⟨s, rfl, fun hs n => run_of_stopped hs (0 + n)⟩
  | succ k ih =>
    obtain ⟨u, hu⟩ := step_answers s
    obtain ⟨t, ht, hstays⟩ := ih u
    refine ⟨t, (run_succ k hu).trans ht, fun hne n => ?_⟩
    rw [Nat.add_right_comm, run_succ _ hu]
    exact hstays hne n

end Sys2Proof.Machine

section

open Sys2Proof Sys2Proof.Machine

/-- Settles O41: each phase answers, as no instruction refuses and every fault is a value of RUN. -/
theorem everyStepAnswersANextState : Obligations.EveryStepAnswersANextState := step_answers

/-- Settles O42, by induction over the number of cycles. -/
theorem runRepeatsStepUntilRunLeavesRunning : Obligations.RunRepeatsStepUntilRunLeavesRunning :=
  ⟨fun k _ _ h => run_succ k h, run_answers_and_stays⟩

end

/-! ## Phase B check by check (43_dispatch_loop.md R120 to R130) -/

namespace Sys2Proof

open Machine (opcodeBytes firstOperandIsRegister secondOperandIsRegister threeByteOpcodes sequentialRows)

/-- An operand byte that the opcode's format declares a register index is above 7 (R125). -/
def BadRegister (ir opa opb : Byte) : Prop :=
  (ir ∈ firstOperandIsRegister ∧ 8 ≤ opa.toNat) ∨ (ir ∈ secondOperandIsRegister ∧ 8 ≤ opb.toNat)

theorem exists_decode_ok {ir opa opb : Byte} (hir : ir ∈ opcodeBytes) (hregs : ¬ BadRegister ir opa opb) :
    ∃ i, decode ir opa opb = .ok i := by
  match hd : decode ir opa opb with
  | .ok i => exact ⟨i, rfl⟩
  | .error (.illegalInstruction b) => exact absurd hir (decode_illegalInstruction hd).2
  | .error (.registerOutOfRange b) =>
    obtain ⟨hfirst, ha, -⟩ | ⟨hsecond, -, hb, -⟩ := decode_eq_registerOutOfRange_iff.mp hd
    · exact absurd (.inl ⟨hfirst, ha⟩) hregs
    · exact absurd (.inr ⟨hsecond, hb⟩) hregs

theorem decode_hlt {ir : Byte} (h : ir = 0x01) (opa opb : Byte) : decode ir opa opb = .ok .hlt := by
  subst h
  rfl

theorem threeByteOpcodes_subset_opcodeBytes : threeByteOpcodes ⊆ opcodeBytes := by decide

theorem push_call_opcodes_subset_opcodeBytes : [(0x45 : Byte), 0x50] ⊆ opcodeBytes := by decide

theorem opc_mem_threeByteOpcodes_iff {i : Instr} : opc i.mnemonic ∈ threeByteOpcodes ↔ (encode i).length = 3 := by
  have hlen : (encode i).length = 1 + i.mnemonic.format.operandCount := by cases i <;> rfl
  rw [hlen]
  cases i.mnemonic <;> decide

theorem mem_sequentialRows_of_threeByte {m : Mnemonic} (h : opc m ∈ threeByteOpcodes) : m ∈ sequentialRows := by
  revert h
  cases m <;> decide

theorem opc_mem_push_call_iff {m : Mnemonic} : opc m ∈ [(0x45 : Byte), 0x50] ↔ m ∈ [Mnemonic.push, .call] := by
  cases m <;> decide

theorem length_encode_le_three (i : Instr) : (encode i).length ≤ 3 := by cases i <;> simp [encode, Instr.operands]

end Sys2Proof

namespace Sys2Proof.Machine

variable {u : State} {i : Instr}

/-! ### What exec answers past the register check -/

theorem exec_push_call_of_noRoom (hw : i.wf = true) (hi : i.mnemonic ∈ [Mnemonic.push, .call])
    (hp : u.pc.toNat ≤ 253) (h0 : u.x .sp = 0) : exec i u = .next (u.stoppedBy .stackOverflow none) := by
  cases i with
  | push | call =>
    obtain ⟨a, rfl⟩ := Reg.exists_byte_of_isRegByte hw
    exact withReg_push_of_noRoom hp h0 _
  | _ => simp [Instr.mnemonic] at hi

/-- Where the advance fits and a push has room, a well-formed instruction other than HLT leaves RUN alone. -/
theorem exec_keeps_run (hw : i.wf = true) (hhlt : i.mnemonic ≠ .hlt) (hp : u.pc.toNat ≤ 253)
    (hfit : u.pc.toNat + (encode i).length < 256) (hroom : i.mnemonic ∈ [Mnemonic.push, .call] → u.x .sp ≠ 0) :
    ∃ t, exec i u = .next t ∧ t.run = u.run := by
  by_cases hseq : i.mnemonic ∈ sequentialRows
  · obtain ⟨t, ht, -, hrun⟩ := exec_of_fits hw hseq hp hfit fun h => hroom (by simp [h])
    exact ⟨t, ht, hrun⟩
  · cases i with
    | hlt => exact absurd rfl hhlt
    | ret => exact ⟨_, exec_ret u, rfl⟩
    | iret => exact ⟨_, rfl, returnFromInterrupt_run u⟩
    | call =>
      obtain ⟨a, rfl⟩ := Reg.exists_byte_of_isRegByte hw
      exact ⟨_, exec_call_of_room hp (hroom (by simp [Instr.mnemonic])), rfl⟩
    | jmp | jeq | jne | jlt =>
      obtain ⟨a, rfl⟩ := Reg.exists_byte_of_isRegByte hw
      exact ⟨_, jumpWhen_byte _ a hp, rfl⟩
    | _ => simp [Instr.mnemonic, sequentialRows] at hseq

/-! ### What phase B answers -/

theorem executePhase_of_gt (hp : 253 < u.pc.toNat) :
    executePhase u = .next (u.stoppedBy .addressOutOfRange (some 256)) := by
  rw [executePhase, fetch_of_gt hp]
  rfl

theorem executePhase_of_decode_ok (hp : u.pc.toNat ≤ 253)
    (hd : decode (u.mem.read u.pc) (u.mem.read (u.pc + 1)) (u.mem.read (u.pc + 2)) = .ok i) :
    executePhase u = exec i u := by
  simp only [executePhase, fetch_of_le hp, hd]

theorem executePhase_of_hlt (hp : u.pc.toNat ≤ 253) (hir : u.mem.read u.pc = 0x01) :
    executePhase u = .next (u.setRun .halted) :=
  executePhase_of_decode_ok hp (decode_hlt hir _ _)

theorem executePhase_of_illegal (hp : u.pc.toNat ≤ 253) (hir : u.mem.read u.pc ∉ opcodeBytes) :
    executePhase u = .next (u.stoppedBy .illegalInstruction (some (u.mem.read u.pc).toNat)) := by
  simp only [executePhase, fetch_of_le hp, decode_of_not_mem_opcodeBytes hir]
  rfl

theorem executePhase_of_registerOutOfRange {b : Byte} (hp : u.pc.toNat ≤ 253)
    (hd : decode (u.mem.read u.pc) (u.mem.read (u.pc + 1)) (u.mem.read (u.pc + 2)) = .error (.registerOutOfRange b)) :
    executePhase u = .next (u.stoppedBy .registerOutOfRange (some b.toNat)) := by
  simp only [executePhase, fetch_of_le hp, hd]
  rfl

/-- Past the checks of the opcode and the register operands, phase B is exec of a well-formed instruction. -/
theorem executePhase_eq_exec (hp : u.pc.toNat ≤ 253) (hir : u.mem.read u.pc ∈ opcodeBytes)
    (hregs : ¬ BadRegister (u.mem.read u.pc) (u.mem.read (u.pc + 1)) (u.mem.read (u.pc + 2))) :
    ∃ i : Instr, i.wf = true ∧ u.mem.read u.pc = opc i.mnemonic ∧ executePhase u = exec i u := by
  obtain ⟨i, hd⟩ := exists_decode_ok hir hregs
  exact ⟨i, decode_ok_wf hd, decode_ok_opcode hd, executePhase_of_decode_ok hp hd⟩

theorem executePhase_of_threeByte_at_253 (hir : u.mem.read u.pc ∈ threeByteOpcodes)
    (hregs : ¬ BadRegister (u.mem.read u.pc) (u.mem.read (u.pc + 1)) (u.mem.read (u.pc + 2))) (hp : u.pc = 253) :
    executePhase u = .next (u.stoppedBy .addressOutOfRange (some 256)) := by
  have hpc : u.pc.toNat = 253 := congrArg BitVec.toNat hp
  obtain ⟨i, hw, hop, he⟩ := executePhase_eq_exec hpc.le (threeByteOpcodes_subset_opcodeBytes hir) hregs
  rw [hop] at hir
  have hlen := opc_mem_threeByteOpcodes_iff.mp hir
  rw [he]
  exact exec_of_not_fits hw (mem_sequentialRows_of_threeByte hir) hpc.le (by omega)

theorem executePhase_of_push_noRoom (hp : u.pc.toNat ≤ 253) (hir : u.mem.read u.pc ∈ [(0x45 : Byte), 0x50])
    (hregs : ¬ BadRegister (u.mem.read u.pc) (u.mem.read (u.pc + 1)) (u.mem.read (u.pc + 2))) (h0 : u.x .sp = 0) :
    executePhase u = .next (u.stoppedBy .stackOverflow none) := by
  obtain ⟨i, hw, hop, he⟩ := executePhase_eq_exec hp (push_call_opcodes_subset_opcodeBytes hir) hregs
  rw [hop] at hir
  rw [he]
  exact exec_push_call_of_noRoom hw (opc_mem_push_call_iff.mp hir) hp h0

/-- A window that passes every check keeps the machine running. -/
theorem executePhase_keeps_run (hp : u.pc.toNat ≤ 253) (hir : u.mem.read u.pc ∈ opcodeBytes)
    (hhlt : u.mem.read u.pc ≠ 0x01)
    (hregs : ¬ BadRegister (u.mem.read u.pc) (u.mem.read (u.pc + 1)) (u.mem.read (u.pc + 2)))
    (hend : ¬ (u.mem.read u.pc ∈ threeByteOpcodes ∧ u.pc = 253))
    (hroom : ¬ (u.mem.read u.pc ∈ [(0x45 : Byte), 0x50] ∧ u.x .sp = 0)) :
    ∃ t, executePhase u = .next t ∧ t.run = u.run := by
  obtain ⟨i, hw, hop, he⟩ := executePhase_eq_exec hp hir hregs
  rw [hop] at hhlt hend hroom
  rw [opc_mem_threeByteOpcodes_iff] at hend
  have hfit : u.pc.toNat + (encode i).length < 256 := by
    have hlen := length_encode_le_three i
    by_contra hover
    have hpc : u.pc.toNat = 253 := by omega
    exact hend ⟨by omega, BitVec.eq_of_toNat_eq hpc⟩
  rw [he]
  exact exec_keeps_run hw (fun h => hhlt (congrArg opc h)) hp hfit
    fun hpush h0 => hroom ⟨opc_mem_push_call_iff.mpr hpush, h0⟩

end Sys2Proof.Machine

section

open Sys2Proof Sys2Proof.Machine

/-- Settles O36: the step is phase B, and the window decodes. -/
theorem stepRunsTheDecodedInstruction : Obligations.StepRunsTheDecodedInstruction :=
  fun _ _ hs hu hp hd => (step_eq_executePhase hs hu).trans (executePhase_of_decode_ok hp hd)

/-- Settles O18: phase B halts at the byte 0x01 where the window fits, and faults before it where it does not. -/
theorem hltFollowsItsRule : Obligations.HltFollowsItsRule := by
  intro s
  refine ⟨rfl, exec_hlt s, fun hs hu => ?_, fun hs => step_of_stopped (by simp [hs])⟩
  rw [step_eq_executePhase hs hu]
  exact ⟨executePhase_of_hlt, executePhase_of_gt⟩

/-- Settles O37: the step is phase B, which the decoder's refusals end first and then, of a well-formed instruction, the
advance to 256 or a push without room. -/
theorem phaseBChecksInOrder : Obligations.PhaseBChecksInOrder := by
  intro s u ir opa opb badRegister hs hu
  rw [step_eq_executePhase hs hu]
  refine ⟨executePhase_of_gt, fun hp => ⟨executePhase_of_hlt hp, fun hir => ⟨_, executePhase_of_illegal hp hir⟩,
    fun hir ha => ?_, fun hir ha hb => ?_, executePhase_of_threeByte_at_253, executePhase_of_push_noRoom hp,
    fun hir hhlt hregs hend hroom => ?_⟩⟩
  · exact executePhase_of_registerOutOfRange hp (decode_eq_registerOutOfRange_iff.mpr (.inl ⟨hir, ha, rfl⟩))
  · exact executePhase_of_registerOutOfRange hp (decode_eq_registerOutOfRange_iff.mpr (.inr ⟨hir, ha, hb, rfl⟩))
  · obtain ⟨t, ht, hrun⟩ := executePhase_keeps_run hp hir hhlt hregs hend hroom
    exact ⟨t, ht, hrun.trans hu⟩

end

/-! ## Placing an instruction where the next step fetches (the model's own operation, log 11) -/

namespace Sys2Proof

theorem decode_of_decodeTableWord {nbits w : Nat} {i : Instr} (h : decodeTableWord nbits w = some i) :
    decode (tableByte nbits w 0) (tableByte nbits w 1) (tableByte nbits w 2) = .ok i := by
  unfold decodeTableWord at h
  split at h
  · next hd => cases h; exact hd
  · cases h

end Sys2Proof

namespace Sys2Proof.Machine

theorem Regs.set_get_self (g : Regs) (r : Reg) : g.set r (g.get r) = g := by cases r <;> rfl

theorem fetchPlace_toNat_lt (s : State) : (fetchPlace s).toNat < 253 := by
  unfold fetchPlace
  split
  · next h => exact Nat.lt_of_add_lt_add_right h
  · decide

/-- Three writes to consecutive cells are read back, as the cells differ. -/
theorem Memory.read_three_writes {m : Memory} (hm : m.wf = true) (p a b c : Byte) :
    let m' := ((m.write p a).write (p + 1) b).write (p + 2) c
    m'.read p = a ∧ m'.read (p + 1) = b ∧ m'.read (p + 2) = c := by
  have h01 : p ≠ p + 1 := by bv_omega
  have h02 : p ≠ p + 2 := by bv_omega
  have h12 : p + 1 ≠ p + 2 := by bv_omega
  have hm1 := Memory.write_wf hm p a
  refine ⟨?_, ?_, Memory.read_write_same (Memory.write_wf hm1 _ _) _ _⟩
  · rw [Memory.read_write_ne _ _ h02, Memory.read_write_ne _ _ h01, Memory.read_write_same hm]
  · rw [Memory.read_write_ne _ _ h12, Memory.read_write_same hm1]

variable (s : State) (ir opa opb : Byte)

/-- The inputs placed are idle, so sampling them leaves the register file alone. -/
theorem sample_placeInstruction_regs :
    (sample (placeInstruction s ir opa opb)).regs = (placeInstruction s ir opa opb).regs := by
  have hinput : (placeInstruction s ir opa opb).nextInput = { tick := false, irq := 0 } := rfl
  have hor (v : Byte) : v ||| 0 ||| timerBit false = v := by simp [timerBit]
  rw [sample_regs, hinput, hor]
  exact Regs.set_get_self _ .is

/-- Every enabled line's request is cleared, so phase A2 has none to take. -/
theorem interruptPhase_placeInstruction :
    interruptPhase (placeInstruction s ir opa opb) = sample (placeInstruction s ir opa opb) := by
  apply interruptPhase_eq_sample
  have hx (r : Reg) : (sample (placeInstruction s ir opa opb)).x r = (placeInstruction s ir opa opb).x r :=
    congrArg (fun g => g.get r) (sample_placeInstruction_regs s ir opa opb)
  rw [hx, hx]
  calc s.x .im &&& (s.x .is &&& ~~~(s.x .im))
    _ = s.x .is &&& (s.x .im &&& ~~~(s.x .im)) := by ac_rfl
    _ = 0 := by simp

variable {s ir opa opb}

/-- The bytes placed are the window at the pc placed. -/
theorem placeInstruction_window (hm : s.mem.wf = true) :
    let t := placeInstruction s ir opa opb
    t.mem.read t.pc = ir ∧ t.mem.read (t.pc + 1) = opa ∧ t.mem.read (t.pc + 2) = opb :=
  Memory.read_three_writes hm (fetchPlace s) ir opa opb

theorem step_placeInstruction (hm : s.mem.wf = true) {i : Instr} (hd : decode ir opa opb = .ok i) :
    step (placeInstruction s ir opa opb) = exec i (sample (placeInstruction s ir opa opb)) := by
  have hphase := interruptPhase_placeInstruction s ir opa opb
  obtain ⟨hir, hopa, hopb⟩ := placeInstruction_window (ir := ir) (opa := opa) (opb := opb) hm
  rw [step_eq_executePhase rfl (congrArg State.run hphase), hphase]
  refine executePhase_of_decode_ok (fetchPlace_toNat_lt s).le ?_
  rw [sample_mem, sample_pc, hir, hopa, hopb]
  exact hd

end Sys2Proof.Machine

section

open Sys2Proof Sys2Proof.Machine

/-- Settles O50: the placed window is read back at a pc where it fits, and with idle inputs and no enabled line pending
phases A1 and A2 leave the registers alone. -/
theorem placedWordIsTheNextInstruction : Obligations.PlacedWordIsTheNextInstruction :=
  ⟨fun s _ _ _ hm hd => ⟨step_placeInstruction hm (decode_of_decodeTableWord hd), sample_placeInstruction_regs s _ _ _,
    fetchPlace_toNat_lt s⟩, fun _ _ => rfl⟩

end

/-! ## Phase A1: the inputs sampled into x[6] (60_exceptions.md R171) -/

namespace Sys2Proof.Machine

variable {s : State}

theorem nextInput_of_inputs {i : CycleInput} {rest : List CycleInput} (h : s.inputs = i :: rest) :
    s.nextInput = i := by simp [State.nextInput, h]

theorem timerBit_eq (tick : Bool) : timerBit tick = if tick then 0x01 else 0x00 := rfl

/-- The timer raises line 0 alone. -/
theorem timerBit_getLsbD_of_ne (tick : Bool) {i : Line} (h : i ≠ 0) : (timerBit tick).getLsbD i.val = false := by
  revert i tick
  decide

theorem sample_x_is (s : State) : (sample s).x .is = s.x .is ||| s.nextInput.irq ||| timerBit s.nextInput.tick := rfl

/-- A line is pending after the sampling where it was before, where `irq` requests it, or where the timer does. -/
theorem sample_is_getLsbD (s : State) (i : Line) :
    ((sample s).x .is).getLsbD i.val =
      ((s.x .is).getLsbD i.val || s.nextInput.irq.getLsbD i.val || (timerBit s.nextInput.tick).getLsbD i.val) := by
  rw [sample_x_is, BitVec.getLsbD_or, BitVec.getLsbD_or]

theorem sample_keeps_pending {i : Line} (h : (s.x .is).getLsbD i.val = true) :
    ((sample s).x .is).getLsbD i.val = true := by
  rw [sample_is_getLsbD, h, Bool.true_or, Bool.true_or]

@[simp] theorem sample_x_im (s : State) : (sample s).x .im = s.x .im := sample_x_ne s (by decide)
@[simp] theorem sample_x_sp (s : State) : (sample s).x .sp = s.x .sp := sample_x_ne s (by decide)

theorem sameRegsBut_sample (s : State) : SameRegsBut [.is] s (sample s) :=
  fun _ hr => sample_x_ne s (List.ne_of_not_mem_cons hr)

end Sys2Proof.Machine

section

open Sys2Proof Sys2Proof.Machine

/-- Settles O28: the head of the list is the input sampled, and the timer's bit is that of line 0. -/
theorem samplingOrsTheInputsIntoStatus : Obligations.SamplingOrsTheInputsIntoStatus := by
  intro s i rest h
  refine ⟨?_, congrArg List.tail h, sameRegsBut_sample s, fun _ _ => rfl, rfl, rfl, rfl, rfl⟩
  rw [sample_x_is, nextInput_of_inputs h, timerBit_eq]

/-- Settles O29: sampling is an OR, and with `irq` idle it adds the timer's bit alone. -/
theorem samplingNeverClearsAPendingBit : Obligations.SamplingNeverClearsAPendingBit := by
  refine fun s i => ⟨sample_keeps_pending, fun hirq hi => ?_⟩
  have hidle : (0 : Byte).getLsbD i.val = false := BitVec.getLsbD_zero
  rw [sample_is_getLsbD, hirq, timerBit_getLsbD_of_ne _ hi, hidle, Bool.or_false, Bool.or_false]

end

/-! ## Phase A2: the line taken (60_exceptions.md R172, R173) -/

namespace Sys2Proof.Machine

variable {mask status : Byte} {i : Line} {s : State}

theorem eligible_eq_getLsbD (mask status : Byte) (i : Line) :
    eligible mask status i = (mask &&& status).getLsbD i.val := BitVec.getLsbD_and.symm

theorem eligible_iff : eligible mask status i = true ↔ mask.getLsbD i.val = true ∧ status.getLsbD i.val = true :=
  Bool.and_eq_true_iff

/-- The scan goes through the lines in order. -/
theorem lines_eq_finRange : lines = List.finRange 8 := rfl

theorem lowestEligible_eq_some_iff :
    lowestEligible mask status = some i ↔
      eligible mask status i = true ∧ ∀ j : Line, j < i → eligible mask status j = false := by
  rw [lowestEligible, lines_eq_finRange, List.find?_eq_some_iff_getElem]
  simp only [List.getElem_finRange, Bool.not_eq_true']
  refine and_congr_right fun _ => ⟨?_, fun hlow => ⟨i.val, by simp, rfl, fun j hj => hlow _ hj⟩⟩
  rintro ⟨k, hk, rfl, hlow⟩ j hj
  exact hlow j.val hj

/-- Where a line is eligible, that line or a lower one is the line taken. -/
theorem exists_lowestEligible_le (h : eligible mask status i = true) :
    ∃ j : Line, j ≤ i ∧ lowestEligible mask status = some j := by
  cases hj : lowestEligible mask status with
  | none => exact absurd h (List.find?_eq_none.mp hj i (List.mem_finRange i))
  | some j =>
    obtain ⟨-, hlow⟩ := lowestEligible_eq_some_iff.mp hj
    refine ⟨j, not_lt.mp fun hlt => ?_, rfl⟩
    simp [hlow i hlt] at h

theorem exists_eligible (h : mask &&& status ≠ 0) : ∃ i : Line, eligible mask status i = true := by
  by_contra hno
  refine h (BitVec.eq_of_getLsbD_eq fun k hk => ?_)
  have hk' : eligible mask status ⟨k, hk⟩ = false := Bool.eq_false_iff.mpr fun he => hno ⟨_, he⟩
  exact (eligible_eq_getLsbD mask status ⟨k, hk⟩).symm.trans (hk'.trans BitVec.getLsbD_zero.symm)

theorem arbitrate_of_lowestEligible (h : lowestEligible (s.x .im) (s.x .is) = some i) :
    arbitrate s = enterInterrupt i s := by
  rw [arbitrate, h]

theorem arbitrate_of_none_eligible (h : s.x .im &&& s.x .is = 0) : arbitrate s = s := by
  rw [arbitrate, lowestEligible_eq_none h]

/-- A line pending and enabled at the top of a cycle is entered in it, or a lower one that is enabled. -/
theorem interruptPhase_of_pending (him : (s.x .im).getLsbD i.val = true) (his : (s.x .is).getLsbD i.val = true) :
    ∃ j : Line, j ≤ i ∧ (s.x .im).getLsbD j.val = true ∧ interruptPhase s = enterInterrupt j (sample s) := by
  have helig : eligible ((sample s).x .im) ((sample s).x .is) i = true :=
    eligible_iff.mpr ⟨by rwa [sample_x_im], sample_keeps_pending his⟩
  obtain ⟨j, hji, hj⟩ := exists_lowestEligible_le helig
  obtain ⟨hmj, -⟩ := eligible_iff.mp (lowestEligible_eq_some_iff.mp hj).1
  exact ⟨j, hji, by rwa [sample_x_im] at hmj, arbitrate_of_lowestEligible hj⟩

/-- With a line eligible and no room for the frame, phase A2 raises StackOverflow whichever line it is (R174). -/
theorem interruptPhase_of_noRoom (h : (sample s).x .im &&& (sample s).x .is ≠ 0) (hsp : (s.x .sp).toNat < 9) :
    interruptPhase s = (sample s).faulted .stackOverflow none := by
  obtain ⟨i, hi⟩ := exists_eligible h
  obtain ⟨j, -, hj⟩ := exists_lowestEligible_le hi
  rw [← sample_x_sp] at hsp
  exact (arbitrate_of_lowestEligible hj).trans (enterInterrupt_of_lt hsp j)

end Sys2Proof.Machine

section

open Sys2Proof Sys2Proof.Machine

/-- Settles O39: phase A2 stops the machine, so the cycle ends before phase B. -/
theorem entryOverflowEndsTheCycleBeforeTheFetch : Obligations.EntryOverflowEndsTheCycleBeforeTheFetch := by
  intro s hs hline hsp
  have hphase := interruptPhase_of_noRoom hline hsp
  rw [step_of_running hs, performCycle_of_entryFault (by rw [hphase]; exact nofun), hphase, State.faulted_eq_stoppedBy]

/-- Settles O38: the step is phase B, which finds the byte outside the table. -/
theorem illegalInstructionRecordsTheOpcodeByte : Obligations.IllegalInstructionRecordsTheOpcodeByte := by
  intro s t hs hu hp hir h
  rw [step_eq_executePhase hs hu, executePhase_of_illegal hp hir] at h
  cases h
  exact ⟨_, rfl, rfl, rfl, rfl, rfl⟩

end

/-! ## Interrupt entry (60_exceptions.md R174 to R176) -/

namespace Sys2Proof.Machine

/-! ### Bytes pushed one after another -/

/-- MEM after the bytes are pushed in order from SP = `sp` down. -/
def Memory.pushAll (m : Memory) (sp : Byte) : List Byte → Memory
  | [] => m
  | v :: vs => Memory.pushAll (m.write (sp - 1) v) (sp - 1) vs

theorem Memory.read_pushAll_outside {m : Memory} {sp a : Byte} {vs : List Byte} (hroom : vs.length ≤ sp.toNat)
    (ha : a.toNat < sp.toNat - vs.length ∨ sp.toNat ≤ a.toNat) : (m.pushAll sp vs).read a = m.read a := by
  induction vs generalizing m sp with
  | nil => rfl
  | cons v vs ih =>
    rw [List.length_cons] at hroom ha
    have hsp : (sp - 1).toNat = sp.toNat - 1 := by bv_omega
    have hne : a ≠ sp - 1 := by
      rintro rfl
      omega
    exact (ih (by omega) (by omega)).trans (Memory.read_write_ne m v hne)

/-- The byte pushed as number k, counted from 0, stands k + 1 cells below SP. -/
theorem Memory.read_pushAll {m : Memory} (hm : m.wf = true) {sp : Byte} {vs : List Byte}
    (hroom : vs.length ≤ sp.toNat) {k : Nat} (hk : k < vs.length) :
    (m.pushAll sp vs).read (BitVec.ofNat 8 (sp.toNat - 1 - k)) = vs.getD k 0 := by
  induction vs generalizing m sp k with
  | nil => cases hk
  | cons v vs ih =>
    rw [List.length_cons] at hroom hk
    have hsp : (sp - 1).toNat = sp.toNat - 1 := by bv_omega
    rw [Memory.pushAll, ← hsp]
    cases k with
    | zero =>
      rw [Nat.sub_zero, BitVec.ofNat_toNat, BitVec.setWidth_eq, Memory.read_pushAll_outside (by omega) (.inr le_rfl)]
      exact Memory.read_write_same hm _ v
    | succ k =>
      rw [Nat.add_comm k 1, ← Nat.sub_sub, Nat.add_comm 1 k]
      exact ih (Memory.write_wf hm _ v) (by omega) (by omega)

/-! ### The frame -/

variable {s : State} {i : Line}

/-- x[6] as entry on line i saves it: bit i cleared (R175 step 1). -/
def savedStatus (i : Line) (s : State) : Byte := s.x .r6 &&& ~~~(1#8 <<< i.val)

/-- The nine bytes of the frame in the order of their pushes (R175). -/
def frameBytes (i : Line) (s : State) : List Byte :=
  [s.pc, flagByte s.fl, s.x .r0, s.x .r1, s.x .r2, s.x .r3, s.x .r4, s.x .r5, savedStatus i s]

theorem frameWritten_eq_pushAll (i : Line) (s : State) :
    frameWritten i s = s.mem.pushAll (s.x .sp) (frameBytes i s) := rfl

theorem frameWritten_read_outside (hsp : 9 ≤ (s.x .sp).toNat) {a : Byte}
    (ha : a.toNat < (s.x .sp).toNat - 9 ∨ (s.x .sp).toNat ≤ a.toNat) : (frameWritten i s).read a = s.mem.read a :=
  Memory.read_pushAll_outside (vs := frameBytes i s) hsp ha

theorem frameWritten_read (hm : s.mem.wf = true) (hsp : 9 ≤ (s.x .sp).toNat) {k : Nat} (hk : k < 9) :
    (frameWritten i s).read (BitVec.ofNat 8 ((s.x .sp).toNat - 1 - k)) = (frameBytes i s).getD k 0 :=
  Memory.read_pushAll hm (vs := frameBytes i s) hsp hk

theorem savedStatus_getLsbD_of_ne {k : Line} (h : k ≠ i) :
    (savedStatus i s).getLsbD k.val = (s.x .is).getLsbD k.val := by
  have hbit : (1#8 <<< i.val).getLsbD k.val = false := by
    revert i k
    decide
  rw [savedStatus, BitVec.getLsbD_and, BitVec.getLsbD_not, hbit, decide_eq_true k.isLt]
  exact Bool.and_true _

theorem flagByte_eq (fl : FlagBits) : flagByte fl = BitVec.ofNat 8 fl.toNat := (BitVec.ofNat_toNat 8 fl).symm

theorem vectorAddress_eq (i : Line) : vectorAddress i = BitVec.ofNat 8 (0xF8 + i.val) :=
  (BitVec.ofNat_add 0xF8 i.val).symm

theorem vectorAddress_toNat_ge (i : Line) : 0xF8 ≤ (vectorAddress i).toNat := by
  revert i
  decide

/-! ### The fields after an entry with room -/

theorem enterInterrupt_mem (hsp : 9 ≤ (s.x .sp).toNat) : (enterInterrupt i s).mem = frameWritten i s := by
  rw [enterInterrupt_of_ge hsp]

theorem enterInterrupt_x_ne (hsp : 9 ≤ (s.x .sp).toNat) {r : Reg} (hr : r ≠ .sp) : (enterInterrupt i s).x r = 0 := by
  rw [enterInterrupt_of_ge hsp]
  cases r
  case r7 => exact absurd rfl hr
  all_goals rfl

theorem enterInterrupt_x_sp (hsp : 9 ≤ (s.x .sp).toNat) :
    (enterInterrupt i s).x .sp = BitVec.ofNat 8 ((s.x .sp).toNat - 9) := by
  have hnew : (enterInterrupt i s).x .sp = s.x .sp - 1 - 1 - 1 - 1 - 1 - 1 - 1 - 1 - 1 := by
    rw [enterInterrupt_of_ge hsp]
    rfl
  rw [hnew]
  bv_omega

theorem enterInterrupt_pc (hsp : 9 ≤ (s.x .sp).toNat) :
    (enterInterrupt i s).pc = (frameWritten i s).read (vectorAddress i) := by
  rw [enterInterrupt_of_ge hsp]

theorem enterInterrupt_run (hsp : 9 ≤ (s.x .sp).toNat) : (enterInterrupt i s).run = s.run := by
  rw [enterInterrupt_of_ge hsp]

/-- SP after an entry points at the saved x[6], which keeps every bit but that of the line taken (R173). -/
theorem enterInterrupt_keeps_pending (hm : s.mem.wf = true) (hsp : 9 ≤ (s.x .sp).toNat) {k : Line} (hk : k ≠ i) :
    ((enterInterrupt i s).mem.read ((enterInterrupt i s).x .sp)).getLsbD k.val = (s.x .is).getLsbD k.val := by
  have hsaved : (frameWritten i s).read (BitVec.ofNat 8 ((s.x .sp).toNat - 9)) = savedStatus i s :=
    frameWritten_read hm hsp (k := 8) (by decide)
  rw [enterInterrupt_mem hsp, enterInterrupt_x_sp hsp, hsaved, savedStatus_getLsbD_of_ne hk]

end Sys2Proof.Machine

section

open Sys2Proof Sys2Proof.Machine

/-- Settles O31: the nine pushes fill the nine cells below SP and reach no other. -/
theorem interruptEntryPushesItsFrame : Obligations.InterruptEntryPushesItsFrame := by
  intro s i hm
  refine ⟨fun hlt => enterInterrupt_of_lt hlt i, fun hsp => ?_⟩
  rw [← flagByte_eq, ← vectorAddress_eq]
  dsimp only
  refine ⟨fun k hk => ?_, fun a ha => ?_, fun r hr => enterInterrupt_x_ne hsp hr, ?_, ?_, ?_, ?_, ?_⟩
  · rw [enterInterrupt_mem hsp]
    exact frameWritten_read hm hsp hk
  · rw [enterInterrupt_mem hsp]
    exact frameWritten_read_outside hsp ha
  · rw [enterInterrupt_x_sp hsp, BitVec.toNat_ofNat]
    omega
  all_goals rw [enterInterrupt_of_ge hsp]
  exact ⟨rfl, rfl, rfl⟩

/-- Settles O30: the scan from line 0 up finds the lowest eligible line, and entry on it clears its bit alone in the
saved x[6]. -/
theorem lowestEligibleLineIsTaken : Obligations.LowestEligibleLineIsTaken := by
  refine fun s => ⟨arbitrate_of_none_eligible, fun i hi hlow => ?_⟩
  simp only [← eligible_eq_getLsbD] at hi hlow
  have htaken : arbitrate s = enterInterrupt i s :=
    arbitrate_of_lowestEligible (lowestEligible_eq_some_iff.mpr ⟨hi, hlow⟩)
  rw [htaken]
  exact ⟨rfl, fun hm hsp _ hk => enterInterrupt_keeps_pending hm hsp hk⟩

/-- Settles O34: a zero mask makes no line eligible, and entry zeroes x[5] with the others. -/
theorem maskZeroTakesNoInterrupt : Obligations.MaskZeroTakesNoInterrupt := by
  refine ⟨fun s him => interruptPhase_eq_sample ?_, fun s i hsp => enterInterrupt_x_ne hsp (by decide)⟩
  rw [sample_x_im, him]
  exact BitVec.zero_and

/-- Settles O35: no lower line is enabled, so the line itself is entered; with SP at most 0xF8 the frame lies below the
vectors, so pc is the vector as it stood. -/
theorem enabledPendingLineIsEnteredWithinOneCycle : Obligations.EnabledPendingLineIsEnteredWithinOneCycle := by
  intro s i hs hm hge hle him his hlow
  obtain ⟨j, hji, hmj, hphase⟩ := interruptPhase_of_pending him his
  obtain rfl : j = i := hji.eq_of_not_lt fun hlt => Bool.false_ne_true ((hlow j hlt).symm.trans hmj)
  have hvec := vectorAddress_toNat_ge j
  rw [← sample_x_sp] at hge hle
  have hrun : (interruptPhase s).run = .running := by rw [hphase, enterInterrupt_run hge, sample_run, hs]
  refine ⟨?_, hrun, step_eq_executePhase hs hrun⟩
  rw [hphase, enterInterrupt_pc hge, frameWritten_read_outside hge (.inr (by omega)), sample_mem, vectorAddress_eq]

end

/-! ## IRET, the return from an interrupt (60_exceptions.md R180 to R183) -/

namespace Sys2Proof.Machine

variable {s u : State} {i : Line}

theorem exec_iret (s : State) : exec .iret s = .next (returnFromInterrupt s) := rfl

theorem popAddress_toNat (s : State) (k : Nat) : (popAddress s k).toNat = min ((s.x .sp).toNat + k) 255 := by
  rw [popAddress, BitVec.toNat_ofNat]
  omega

/-! ### The fields after the return -/

/-- Which of the nine pops, counted from 0, a saved register comes from. -/
def popIndex (r : Reg) : Nat := savedRegs.reverse.idxOf r

theorem returnFromInterrupt_x_ne (s : State) {r : Reg} (hr : r ≠ .sp) :
    (returnFromInterrupt s).x r = s.mem.read (popAddress s (popIndex r)) := by
  rw [returnFromInterrupt_closed]
  cases r
  case r7 => exact absurd rfl hr
  all_goals rfl

theorem returnFromInterrupt_x_sp (s : State) : (returnFromInterrupt s).x .sp = popAddress s 9 := by
  rw [returnFromInterrupt_closed]
  rfl

theorem returnFromInterrupt_fl (s : State) :
    (returnFromInterrupt s).fl = (s.mem.read (popAddress s 7)).setWidth 3 := by
  rw [returnFromInterrupt_closed]

theorem returnFromInterrupt_pc (s : State) : (returnFromInterrupt s).pc = s.mem.read (popAddress s 8) := by
  rw [returnFromInterrupt_closed]

/-- IRET reads SP and the bytes from there up, and nothing else of the state decides the registers, FL and pc. -/
theorem returnFromInterrupt_congr (hsp : s.x .sp = u.x .sp) (hmem : ∀ a : Byte, s.mem.read a = u.mem.read a) :
    (returnFromInterrupt s).regs = (returnFromInterrupt u).regs ∧
    (returnFromInterrupt s).fl = (returnFromInterrupt u).fl ∧
    (returnFromInterrupt s).pc = (returnFromInterrupt u).pc := by
  simp only [returnFromInterrupt_closed, popAddress, hsp, hmem, and_self]

/-! ### The return undoes the entry -/

theorem setWidth_flagByte (fl : FlagBits) : (flagByte fl).setWidth 3 = fl := by
  rw [flagByte, BitVec.setWidth_setWidth_of_le _ (by decide), BitVec.setWidth_eq]

/-- A saved register's pop meets its push: the last pushed is the first popped. -/
theorem frameBytes_getD_popIndex (i : Line) (s : State) {r : Reg} (hr : r ≠ .sp) :
    (frameBytes i s).getD (8 - popIndex r) 0 = if r = .is then savedStatus i s else s.x r := by
  cases r
  case r7 => exact absurd rfl hr
  all_goals rfl

theorem popIndex_lt (r : Reg) : popIndex r < 9 := by cases r <;> decide

section

variable (hsp : 9 ≤ (s.x .sp).toNat) (hu : u.x .sp = (enterInterrupt i s).x .sp)

include hsp hu

/-- From SP as the entry left it the nine pops read below the old SP, so none of them meets the clamp. -/
theorem popAddress_of_entry {k : Nat} (hk : k ≤ 9) : popAddress u k = BitVec.ofNat 8 ((s.x .sp).toNat - 9 + k) := by
  have hlt := (s.x .sp).isLt
  rw [popAddress, hu, enterInterrupt_x_sp hsp, BitVec.toNat_ofNat]
  congr 1
  omega

theorem popAddress_nine_of_entry : popAddress u 9 = s.x .sp := by
  rw [popAddress_of_entry hsp hu le_rfl, Nat.sub_add_cancel hsp, BitVec.ofNat_toNat, BitVec.setWidth_eq]

/-- The k-th pop reads the frame's bytes from the last pushed back to the first. -/
theorem read_popAddress_of_entry (hm : s.mem.wf = true)
    (hcells : ∀ k (_ : k < 9), u.mem.read (BitVec.ofNat 8 ((s.x .sp).toNat - 9 + k)) =
      (enterInterrupt i s).mem.read (BitVec.ofNat 8 ((s.x .sp).toNat - 9 + k))) {k : Nat} (hk : k < 9) :
    u.mem.read (popAddress u k) = (frameBytes i s).getD (8 - k) 0 := by
  have hcell : (s.x .sp).toNat - 9 + k = (s.x .sp).toNat - 1 - (8 - k) := by omega
  rw [popAddress_of_entry hsp hu hk.le, hcells k hk, enterInterrupt_mem hsp, hcell]
  exact frameWritten_read hm hsp (by omega)

end

end Sys2Proof.Machine

section

open Sys2Proof Sys2Proof.Machine

/-- Settles O19: the nine pops in closed form; a line pending and enabled after them is entered in the next cycle,
unless a lower one is. -/
theorem iretFollowsItsRule : Obligations.IretFollowsItsRule := by
  intro s popped
  have hx {r : Reg} (hr : r ≠ .sp) : (returnFromInterrupt s).x r = popped (popIndex r) := returnFromInterrupt_x_ne s hr
  refine ⟨rfl, _, exec_iret s, hx nofun, hx nofun, hx nofun, hx nofun, hx nofun, hx nofun, hx nofun, ?_,
    returnFromInterrupt_pc s, ?_, fun _ _ => by rw [returnFromInterrupt_mem], returnFromInterrupt_out s,
    ⟨returnFromInterrupt_run s, returnFromInterrupt_inputs s, returnFromInterrupt_cycle s⟩, fun i him his => ?_⟩
  · rw [returnFromInterrupt_fl]
    exact BitVec.toNat_setWidth 3 _
  · rw [returnFromInterrupt_x_sp, popAddress_toNat]
  · obtain ⟨j, hji, -, hphase⟩ := interruptPhase_of_pending him his
    exact ⟨j, hji, hphase⟩

/-- Settles O32: each pop finds the byte its push left, and the ninth brings SP back to where entry found it. -/
theorem interruptRoundTrip : Obligations.InterruptRoundTrip := by
  intro s u i hm hsp hu hcells
  have hpop {k : Nat} (hk : k < 9) := read_popAddress_of_entry hsp hu hm hcells hk
  have hx {r : Reg} (hr : r ≠ .sp) :
      (returnFromInterrupt u).x r = if r = .is then savedStatus i s else s.x r := by
    rw [returnFromInterrupt_x_ne u hr, hpop (popIndex_lt r), frameBytes_getD_popIndex i s hr]
  refine ⟨_, exec_iret u, ?_, ?_, fun r hr => ?_, hx nofun, fun _ => by rw [returnFromInterrupt_mem]⟩
  · exact (returnFromInterrupt_pc u).trans (hpop (by decide))
  · rw [returnFromInterrupt_fl, hpop (by decide)]
    exact setWidth_flagByte s.fl
  · by_cases hr7 : r = .sp
    · rw [hr7, returnFromInterrupt_x_sp, popAddress_nine_of_entry hsp hu]
    · rw [hx hr7, if_neg hr]

/-- Settles O33: IRET reads SP and MEM alone. -/
theorem iretDiscardsLiveRegisters : Obligations.IretDiscardsLiveRegisters :=
  fun s u hsp hmem => ⟨_, _, exec_iret s, exec_iret u, returnFromInterrupt_congr hsp hmem⟩

end

/-! ## Reset and the host's load (70_reset_and_hazards.md R200, R202) -/

namespace Sys2Proof.Machine

variable {m : Memory} {s : State} {image : List Byte}

/-- Writing bytes to consecutive addresses leaves every address below them and above them alone. -/
theorem Memory.read_writeFrom_outside {k : Nat} {bs : List Byte} {a : Byte} (hfit : k + bs.length ≤ 256)
    (ha : a.toNat < k ∨ k + bs.length ≤ a.toNat) : (m.writeFrom k bs).read a = m.read a := by
  induction bs generalizing m k with
  | nil => rfl
  | cons b bs ih =>
    rw [List.length_cons] at hfit ha
    have hne : a ≠ BitVec.ofNat 8 k := by bv_omega
    rw [Memory.writeFrom, ih (by omega) (by omega), Memory.read_write_ne m b hne]

/-- Byte number `i` of the bytes written from `k` up is read back at `k + i`. -/
theorem Memory.read_writeFrom_inside (hm : m.wf = true) {k i : Nat} {bs : List Byte} (hfit : k + bs.length ≤ 256)
    (hi : i < bs.length) : (m.writeFrom k bs).read (BitVec.ofNat 8 (k + i)) = bs.getD i 0 := by
  induction bs generalizing m k i with
  | nil => exact absurd hi (Nat.not_lt_zero i)
  | cons b bs ih =>
    rw [List.length_cons] at hfit hi
    rw [Memory.writeFrom]
    cases i with
    | zero =>
      have hbelow : (BitVec.ofNat 8 k).toNat < k + 1 := by
        rw [BitVec.toNat_ofNat]
        omega
      exact (Memory.read_writeFrom_outside (by omega) (.inl hbelow)).trans (Memory.read_write_same hm _ b)
    | succ i =>
      rw [List.getD_cons_succ, ← ih (Memory.write_wf hm _ b) (k := k + 1) (by omega) (by omega), Nat.add_right_comm,
        Nat.add_assoc]

/-- An image written from address 0 is read back up to its length, and the old memory from there on. -/
theorem Memory.read_writeFrom_zero (hm : m.wf = true) (hfit : image.length ≤ 256) (a : Byte) :
    (m.writeFrom 0 image).read a = if a.toNat < image.length then image.getD a.toNat 0 else m.read a := by
  rw [← Nat.zero_add image.length] at hfit
  split
  next ha => simpa using Memory.read_writeFrom_inside hm hfit ha
  next ha => exact Memory.read_writeFrom_outside hfit (.inr (by omega))

theorem State.load_of_cycle_ne_zero (hc : s.cycle ≠ 0) : s.load image = .refused .loadAfterFirstCycle := if_pos hc

theorem State.load_of_too_long (hc : s.cycle = 0) (hlen : 256 < image.length) :
    s.load image = .refused (.imageOutOfRange image.length) := by
  rw [State.load, if_neg (not_not_intro hc)]
  exact if_pos hlen

theorem State.load_of_fits (hc : s.cycle = 0) (hlen : image.length ≤ 256) :
    s.load image = .next { s with mem := s.mem.writeFrom 0 image } := by
  rw [State.load, if_neg (not_not_intro hc)]
  exact if_neg hlen.not_gt

theorem State.reset_mem_read (a : Byte) : State.reset.mem.read a = 0 := rfl

theorem State.reset_x_ne {r : Reg} (hr : r ≠ .sp) : State.reset.x r = 0 := by
  cases r
  case r7 => exact absurd rfl hr
  all_goals rfl

end Sys2Proof.Machine

section

open Sys2Proof Sys2Proof.Machine

/-- Settles O49: load refuses by its two checks, the cycle first; past them it writes the image's bytes in turn, and no
later byte reaches back to an earlier one. -/
theorem loadWritesTheImageFromAddressZero : Obligations.LoadWritesTheImageFromAddressZero := by
  intro s image hm
  refine ⟨State.load_of_cycle_ne_zero, State.load_of_too_long, fun hc hlen => ⟨_, State.load_of_fits hc hlen, ?_⟩⟩
  exact ⟨Memory.read_writeFrom_zero hm hlen, Memory.writeFrom_wf hm 0 image, rfl⟩

/-- Settles O47: MEM is canonical after reset, and of a running machine the invariant asks nothing more. -/
theorem resetMeetsTheInvariant : Obligations.ResetMeetsTheInvariant := ⟨State.reset_mem_wf, trivial⟩

/-- Settles O48, field by field. -/
theorem resetHasTheStatedValues : Obligations.ResetHasTheStatedValues :=
  ⟨State.reset_mem_read, fun _ => State.reset_x_ne, rfl, rfl, rfl, rfl, rfl⟩

end
